-- ==== Sys2Proof/Word.lean ====
section
/-! DEFINITION. The machine's words: a byte, the 9-bit information field of the fault record, and the
reduction modulo 256 that every arithmetic rule ends with. -/

namespace Sys2Proof

/-- Every register, memory cell, operand and datum is 8 bits wide and unsigned (00_scope.md R6). -/
abbrev Byte := BitVec 8

/-- The 9-bit `info` field of the fault record (10_state.md R33). -/
abbrev Info := BitVec 9

/-- `u8(v)` of 00_scope.md R14: `v mod 256`. -/
def u8 (n : Nat) : Byte := BitVec.ofNat 8 n

/-- A number as the 9-bit information field of the fault record. -/
def toInfo (n : Nat) : Info := BitVec.ofNat 9 n

end Sys2Proof
end

