-- ==== Sys2Proof/Config.lean ====
section
/-! DEFINITION. What is fixed for one machine: the registers' number and the reset constants of 00_scope.md R7, R9, R10 and the two parameters the
spec leaves to the model (R11, R12). No other parameter exists (R13), and the spec leaves no value undefined,
so there is no free value here. -/

namespace Sys2Proof

/-- A general register's index, 0 to 7: `NREG = 8` (00_scope.md R7, 10_state.md R20). -/
abbrev RegIdx := Fin 8

/-- `SP_INDEX = 7` (00_scope.md R9). -/
def SP : RegIdx := 7

/-- `SP_RESET = 0xF4` (00_scope.md R9). -/
def Config.spReset : Byte := 0xF4

/-- `PC_RESET = 0x00` (00_scope.md R10). -/
def Config.pcReset : Byte := 0x00

/-- The two parameters of the hardware. They are fixed for a machine: no step and no host action changes them
(40_execution_cycle.md R115; log entry 2). -/
structure Params where
  /-- `STACK_BOUND_CHECK` (00_scope.md R11). -/
  stackBoundCheck : Bool
  /-- `ALU_EXT_DECODE` (00_scope.md R12). -/
  aluExtDecode : Bool
  deriving DecidableEq, Repr

/-- The parameters' default values (00_scope.md R11, R12). -/
def Params.default : Params := { stackBoundCheck := true, aluExtDecode := false }

end Sys2Proof
end

