-- ==== Sys2Proof/Syntax.lean ====
section
/-! DEFINITION. The instructions as data: one constructor per row of spec/opcode_table.json. Operands are the raw
operand bytes of 30_encoding.md R81, so that a register operand above 7, which the hardware meets and answers with
InvalidRegister (40_execution_cycle.md R106), is a term too (log entry 6). -/

namespace Sys2Proof

inductive Instr where
  /-- 45_halt.md R200. -/
  | hlt
  /-- 43_control.md R152. -/
  | ret
  /-- 42_stack.md R140. -/
  | push (a : Byte)
  /-- 42_stack.md R141. -/
  | pop (a : Byte)
  /-- 41_data_io.md R133. -/
  | prn (a : Byte)
  /-- 43_control.md R151. -/
  | call (a : Byte)
  /-- 43_control.md R153. -/
  | jmp (a : Byte)
  /-- 43_control.md R154. -/
  | jeq (a : Byte)
  /-- 43_control.md R155. -/
  | jne (a : Byte)
  /-- 41_data_io.md R131. -/
  | ldi (a imm : Byte)
  /-- 44_alu_compare.md R172. -/
  | add (a b : Byte)
  /-- 44_alu_compare.md R173. -/
  | mul (a b : Byte)
  /-- 44_alu_compare.md R171. -/
  | cmp (a b : Byte)
  /-- 44_alu_compare.md R175. -/
  | sub (a b : Byte)
  /-- 44_alu_compare.md R176. -/
  | and (a b : Byte)
  /-- 44_alu_compare.md R177. -/
  | or (a b : Byte)
  /-- 44_alu_compare.md R178. -/
  | xor (a b : Byte)
  deriving DecidableEq, Repr

end Sys2Proof
end

