-- ==== Sys2Proof/WellFormed.lean ====
section
/-! DEFINITION. When an instruction's operands are legal: each register operand byte names one of the eight
registers (30_encoding.md R84). The immediate of LDI has no illegal value (R85, R90). -/

namespace Sys2Proof

/-- The register operand bytes of an instruction, in the order the operand check takes them
(30_encoding.md R80; 40_execution_cycle.md R106). -/
def Instr.regOperands : Instr → List Byte
  | .hlt => []
  | .ret => []
  | .push a => [a]
  | .pop a => [a]
  | .prn a => [a]
  | .call a => [a]
  | .jmp a => [a]
  | .jeq a => [a]
  | .jne a => [a]
  | .ldi a _ => [a]
  | .add a b => [a, b]
  | .mul a b => [a, b]
  | .cmp a b => [a, b]
  | .sub a b => [a, b]
  | .and a b => [a, b]
  | .or a b => [a, b]
  | .xor a b => [a, b]

/-- A byte that names a register: 0 to 7, the whole byte compared (30_encoding.md R84). -/
def isRegByte (a : Byte) : Bool := decide (a.toNat < 8)

/-- Every register operand names a register. -/
def Instr.wellFormed (i : Instr) : Bool := i.regOperands.all isRegByte

/-- The first register operand that names no register, which is the one the fault record names
(40_execution_cycle.md R106: `a` before `b`). -/
def Instr.firstBadOperand (i : Instr) : Option Byte := i.regOperands.find? fun a => !isRegByte a

end Sys2Proof
end

