-- ==== Sys2Proof/Decode.lean ====
section
/-! DEFINITION. The opcode map, the decoder and the encoder (30_encoding.md). The byte values stand in ONE table,
`opcode`, read by both directions (92_eei_decisions.md D2: a corrected value is one edit). -/

namespace Sys2Proof

/-- The instruction names of the opcode map (30_encoding.md R86, R87). -/
inductive Mnemonic where
  | HLT | RET | PUSH | POP | PRN | CALL | JMP | JEQ | JNE | LDI | ADD | MUL | CMP | SUB | AND | OR | XOR
  deriving DecidableEq, Repr

/-- The four instruction formats (30_encoding.md R80). -/
inductive Format where
  | N | R | RR | RI
  deriving DecidableEq, Repr

/-- The opcode byte of each instruction (30_encoding.md R86, R87). The spec supplies the values from general
knowledge of the LS-8 (93_implementation_defined.md G1, G2). PRESUMED, log entry 1. -/
def opcode : Mnemonic → Byte
  | .HLT => 0x01
  | .RET => 0x11
  | .PUSH => 0x45
  | .POP => 0x46
  | .PRN => 0x47
  | .CALL => 0x50
  | .JMP => 0x54
  | .JEQ => 0x55
  | .JNE => 0x56
  | .LDI => 0x82
  | .ADD => 0xA0
  | .MUL => 0xA2
  | .CMP => 0xA7
  | .SUB => 0xA1
  | .AND => 0xA8
  | .OR => 0xAA
  | .XOR => 0xAB

/-- The format of each instruction (30_encoding.md R80). -/
def Mnemonic.format : Mnemonic → Format
  | .HLT | .RET => .N
  | .PUSH | .POP | .PRN | .CALL | .JMP | .JEQ | .JNE => .R
  | .ADD | .MUL | .CMP | .SUB | .AND | .OR | .XOR => .RR
  | .LDI => .RI

/-- The thirteen base instructions (30_encoding.md R87). -/
def baseMnemonics : List Mnemonic :=
  [.HLT, .RET, .PUSH, .POP, .PRN, .CALL, .JMP, .JEQ, .JNE, .LDI, .ADD, .MUL, .CMP]

/-- The four instructions that decode only when `ALU_EXT_DECODE` is true (30_encoding.md R86). -/
def extMnemonics : List Mnemonic := [.SUB, .AND, .OR, .XOR]

/-- The instructions the decoder recognises (30_encoding.md R89). -/
def legalMnemonics (ext : Bool) : List Mnemonic :=
  if ext then baseMnemonics ++ extMnemonics else baseMnemonics

/-- Look an opcode byte up in the opcode map: the whole byte is matched (30_encoding.md R87, R89;
40_execution_cycle.md R103). -/
def decodeOpcode (ext : Bool) (op : Byte) : Option Mnemonic :=
  (legalMnemonics ext).find? fun m => opcode m == op

/-- `w = op[7:6] + 1` (30_encoding.md R82). -/
def widthOf (op : Byte) : Nat := (op >>> 6).toNat + 1

/-- The instruction with mnemonic `m` and operand bytes `a`, `b`; a byte the format does not have is not looked at
(30_encoding.md R80, R81). -/
def Mnemonic.assemble (m : Mnemonic) (a b : Byte) : Instr :=
  match m with
  | .HLT => .hlt
  | .RET => .ret
  | .PUSH => .push a
  | .POP => .pop a
  | .PRN => .prn a
  | .CALL => .call a
  | .JMP => .jmp a
  | .JEQ => .jeq a
  | .JNE => .jne a
  | .LDI => .ldi a b
  | .ADD => .add a b
  | .MUL => .mul a b
  | .CMP => .cmp a b
  | .SUB => .sub a b
  | .AND => .and a b
  | .OR => .or a b
  | .XOR => .xor a b

/-- Why bytes are no instruction. -/
inductive DecodeError where
  /-- The first byte `op` is not in the opcode map (40_execution_cycle.md R103). -/
  | illegal (op : Byte)
  /-- Byte `k` of the instruction (0 the opcode) is not there: the bytes end before it
  (40_execution_cycle.md R102, when the bytes are those of memory from `pc` to its end). -/
  | missing (k : Nat)
  deriving DecidableEq, Repr

/-- The operand bytes of an instruction of width `w`, in address order, and the bytes after it
(30_encoding.md R81; 40_execution_cycle.md R102, R104). -/
def takeOperands (w : Nat) (bytes : List Byte) : Except DecodeError (Byte × Byte × List Byte) :=
  match w, bytes with
  | 3, a :: b :: rest => .ok (a, b, rest)
  | 3, [_] => .error (.missing 2)
  | 3, [] => .error (.missing 1)
  | 2, a :: rest => .ok (a, 0, rest)
  | 2, [] => .error (.missing 1)
  | _, rest => .ok (0, 0, rest)

/-- Decode one instruction from bytes at increasing addresses, and return the bytes after it. Legality comes first;
only a legal opcode asks for operand bytes (30_encoding.md R83). Register operands are not judged here: their check
is the instruction's (40_execution_cycle.md R106; log entry 6). -/
def decode (ext : Bool) (bytes : List Byte) : Except DecodeError (Instr × List Byte) :=
  match bytes with
  | [] => .error (.missing 0)
  | op :: rest =>
    match decodeOpcode ext op with
    | none => .error (.illegal op)
    | some m =>
      match takeOperands (widthOf op) rest with
      | .error e => .error e
      | .ok (a, b, rest') => .ok (m.assemble a b, rest')

/-- The mnemonic of an instruction. -/
def Instr.mnemonic : Instr → Mnemonic
  | .hlt => .HLT
  | .ret => .RET
  | .push _ => .PUSH
  | .pop _ => .POP
  | .prn _ => .PRN
  | .call _ => .CALL
  | .jmp _ => .JMP
  | .jeq _ => .JEQ
  | .jne _ => .JNE
  | .ldi _ _ => .LDI
  | .add _ _ => .ADD
  | .mul _ _ => .MUL
  | .cmp _ _ => .CMP
  | .sub _ _ => .SUB
  | .and _ _ => .AND
  | .or _ _ => .OR
  | .xor _ _ => .XOR

/-- The operand bytes of an instruction in address order (30_encoding.md R80, R81). -/
def Instr.operands : Instr → List Byte
  | .hlt => []
  | .ret => []
  | .push a => [a]
  | .pop a => [a]
  | .prn a => [a]
  | .call a => [a]
  | .jmp a => [a]
  | .jeq a => [a]
  | .jne a => [a]
  | .ldi a imm => [a, imm]
  | .add a b => [a, b]
  | .mul a b => [a, b]
  | .cmp a b => [a, b]
  | .sub a b => [a, b]
  | .and a b => [a, b]
  | .or a b => [a, b]
  | .xor a b => [a, b]

/-- The opcode byte of an instruction. -/
def Instr.opcodeByte (i : Instr) : Byte := opcode i.mnemonic

/-- The bytes of an instruction at increasing addresses (20_memory.md R63; 30_encoding.md R80). -/
def encode (i : Instr) : List Byte := i.opcodeByte :: i.operands

/-- The instruction's total width in bytes (30_encoding.md R82). -/
def Instr.width (i : Instr) : Nat := widthOf i.opcodeByte

/-- The instruction is in the opcode map under this value of `ALU_EXT_DECODE` (30_encoding.md R86, R89). -/
def Instr.decodesUnder (ext : Bool) (i : Instr) : Bool := (legalMnemonics ext).contains i.mnemonic

/-- The three bytes of a table word: bit 0 is the least significant bit of the first byte, and bits from `nbits` up
are 0. -/
def tableBytes (nbits w : Nat) : List Byte :=
  let v := w % 2 ^ nbits
  [u8 v, u8 (v / 2 ^ 8), u8 (v / 2 ^ 16)]

/-- The instruction the decoder reads from a word of spec/opcode_table.json. The table lists the rows of both values
of `ALU_EXT_DECODE`, so the decoder reads it with the extension on (log entry 3). -/
def decodeTableWord (nbits w : Nat) : Option Instr :=
  match decode true (tableBytes nbits w) with
  | .ok (i, _) => some i
  | .error _ => none

end Sys2Proof
end

