-- ==== Sys2Proof/Machine/State.lean ====
section
/-! DEFINITION. The machine's state as plain data: the tuple `(x[0..7], pc, FL, mem[0..255], runstate, fault, out)` of
10_state.md, and beside it the two parameters of the hardware, which no step and no host action changes (log entry 2).
Also the reasons a step can stop outside the spec's own faults, and the state after reset. -/

namespace Sys2Proof.Machine

/-- The three flags, as booleans (10_state.md R28, R31). -/
structure Flags where
  /-- Equal. -/
  e : Bool
  /-- Greater-Than. -/
  g : Bool
  /-- Less-Than. -/
  l : Bool
  deriving DecidableEq, Repr

/-- The run state (10_state.md R32). -/
inductive RunState where
  | ready
  | running
  | halted
  | faulted
  deriving DecidableEq, Repr

/-- The fault codes (60_exceptions.md R211). -/
inductive FaultCode where
  /-- The reset value: no fault. -/
  | none
  /-- R212. -/
  | illegalInstruction
  /-- R213. -/
  | invalidRegister
  /-- R214. -/
  | invalidAddress
  /-- R215. -/
  | unsupportedOperation
  /-- R216. -/
  | stackOverflow
  /-- R217. -/
  | stackUnderflow
  deriving DecidableEq, Repr

/-- The fault record (10_state.md R33). -/
structure FaultRecord where
  code : FaultCode
  /-- The address of the instruction that faulted. -/
  pc : Byte
  /-- Its opcode byte, as fetched (log entry 8). -/
  opcode : Byte
  /-- The register index, memory address or stack pointer value the fault names. -/
  info : Info
  deriving DecidableEq, Repr

/-- The fault record after reset (10_state.md R37). -/
def FaultRecord.cleared : FaultRecord := { code := .none, pc := 0, opcode := 0, info := 0 }

/-- Memory: the cells that do not hold what an unlisted cell reads as, with strictly rising addresses
(`Memory.wf` in Machine/Ops.lean says the form). -/
abbrev Memory := List Host.Cell

structure State where
  /-- `x[0]` to `x[7]`; `x[7]` is the stack pointer (10_state.md R20, R22). -/
  regs : Vector Byte 8
  /-- 10_state.md R25. -/
  pc : Byte
  /-- 10_state.md R28. -/
  flags : Flags
  /-- 10_state.md R27. -/
  mem : Memory
  /-- 10_state.md R32. -/
  runstate : RunState
  /-- 10_state.md R33. -/
  fault : FaultRecord
  /-- The bytes emitted, oldest first (10_state.md R34). -/
  out : List Byte
  /-- The hardware's parameters (00_scope.md R11, R12; log entry 2). -/
  params : Params
  deriving DecidableEq, Repr

/-- Stops that are not the spec's faults. There are none: every fault of the spec is a next state with
`runstate = Faulted` (60_exceptions.md R220; log entry 4), and no access can leave the address space
(20_memory.md R62), so this type has no constructor and no step can fault. -/
inductive Fault where
  deriving DecidableEq, Repr

/-- Refusals. -/
inductive Refusal where
  /-- An instruction without a meaning, by its mnemonic. Raised only by an arm of `exec` that rejects its instruction;
  no arm does. Safe: the machine stops. -/
  | notModelled (mnemonic : String)
  deriving DecidableEq, Repr

/-- Reset of a machine with the parameters `p` (10_state.md R37; 70_reset_and_hazards.md R240). Memory lists nothing:
every cell is 0x00. -/
def State.resetWith (p : Params) : State where
  regs := #v[0, 0, 0, 0, 0, 0, 0, Config.spReset]
  pc := Config.pcReset
  flags := { e := false, g := false, l := false }
  mem := []
  runstate := .ready
  fault := FaultRecord.cleared
  out := []
  params := p

/-- The machine right after reset, with the parameters' default values (00_scope.md R11, R12). -/
def State.reset : State := State.resetWith Params.default

end Sys2Proof.Machine
end

