-- ==== Sys2Proof/Machine/Ops.lean ====
section
/-! DEFINITION. The named operations over memory, registers, the program counter, the output port and the run state
(00_scope.md R15), and the one fault entry (60_exceptions.md R220). There is no return from a fault: `Faulted` is left
only by reset (R222), which is Machine/HostPort.lean's. -/

namespace Sys2Proof.Machine

/-- The three outcomes of an instruction on this machine. -/
abbrev Result := Host.Outcome State Fault Refusal

/-! ## Memory -/

/-- What a cell that memory does not list reads as: the reset value 0x00 (10_state.md R37; 20_memory.md R68). -/
def Memory.unlisted : Byte := 0x00

/-- The canonical form, above a lower bound for the addresses: strictly rising addresses below 256, no cell equal to
what an unlisted one reads as. -/
def Memory.wfFrom (lo : Nat) : Memory → Bool
  | [] => true
  | (k, v) :: m => decide (lo ≤ k) && decide (k < 256) && (v != Memory.unlisted) && Memory.wfFrom (k + 1) m

/-- The canonical form of memory. -/
def Memory.wf (m : Memory) : Bool := Memory.wfFrom 0 m

/-- The byte listed at address `a`, or what an unlisted cell reads as. -/
def Memory.lookup (a : Nat) : Memory → Byte
  | [] => Memory.unlisted
  | (k, v) :: m => if k = a then v else Memory.lookup a m

/-- `MemRead(addr, 1)` (20_memory.md R62). The address is 8 bits wide, so every address exists. -/
def Memory.read (m : Memory) (a : Byte) : Byte := Memory.lookup a.toNat m

/-- Put byte `v` at address `a`, keeping the canonical form. -/
def Memory.insert (a : Nat) (v : Byte) : Memory → Memory
  | [] => if v = Memory.unlisted then [] else [(a, v)]
  | (k, w) :: m =>
    if a < k then
      if v = Memory.unlisted then (k, w) :: m else (a, v) :: (k, w) :: m
    else if a = k then
      if v = Memory.unlisted then m else (k, v) :: m
    else (k, w) :: Memory.insert a v m

/-- `MemWrite(addr, 1, v)` (20_memory.md R62). -/
def Memory.write (m : Memory) (a v : Byte) : Memory := Memory.insert a.toNat v m

/-- Write bytes at rising addresses from `a`; bytes that would lie past 255 are dropped. Callers give bytes that fit
(60_exceptions.md R232: a load of at most 256 bytes). -/
def Memory.writeBytes (m : Memory) (a : Nat) : List Byte → Memory
  | [] => m
  | v :: vs => Memory.writeBytes (if a < 256 then Memory.write m (u8 a) v else m) (a + 1) vs

/-! ## Registers -/

/-- `x[i]` (00_scope.md R15). No register is hardwired (10_state.md R21). -/
def State.reg (s : State) (i : RegIdx) : Byte := s.regs[i]

/-- `x[i] <- v` (00_scope.md R15). -/
def State.writeReg (s : State) (i : RegIdx) (v : Byte) : State := { s with regs := s.regs.set i v }

/-! ## Faults, the program counter, the output port, the run state -/

/-- `raise F(info)` by the instruction with opcode byte `op`: the fault entry of 60_exceptions.md R220. It saves the
instruction's address, opcode and the information, and changes nothing else: not `pc`, no register, flag or cell. -/
def raise (c : FaultCode) (op : Byte) (info : Nat) (s : State) : State :=
  { s with runstate := .faulted, fault := { code := c, pc := s.pc, opcode := op, info := toInfo info } }

/-- The sequential successor, without truncation (00_scope.md R16; 40_execution_cycle.md R110). -/
def nextSeq (op : Byte) (s : State) : Nat := s.pc.toNat + widthOf op

/-- The end of an instruction that neither wrote `pc` nor halted nor faulted: the sequential advance
(40_execution_cycle.md R110), or, off the end, InvalidAddress with the instruction's effects kept (R111). -/
def advance (op : Byte) (s : State) : State :=
  if nextSeq op s ≤ 255 then { s with pc := u8 (nextSeq op s) } else raise .invalidAddress op (nextSeq op s) s

/-- `pc <- target`: a control transfer. The target is 8 bits wide and is not checked (40_execution_cycle.md R112;
43_control.md R150). -/
def jumpTo (target : Byte) (s : State) : State := { s with pc := target }

/-- `emit(v)`: append to the output sequence; the port always accepts (41_data_io.md R132). -/
def emit (v : Byte) (s : State) : State := { s with out := s.out ++ [v] }

/-- `runstate <- Halted` (45_halt.md R200). -/
def halt (s : State) : State := { s with runstate := .halted }

/-! ## The stack -/

/-- A decrement of the stack pointer would move it below 0, and the check is on (60_exceptions.md R216). -/
def State.stackWouldOverflow (s : State) : Bool := s.params.stackBoundCheck && s.reg SP == 0

/-- An increment of the stack pointer value `sp` would move it above 255, and the check is on (60_exceptions.md R217).
The value is an argument because POP R7 increments the value it has just read (42_stack.md R141). -/
def State.stackWouldUnderflow (s : State) (sp : Byte) : Bool := s.params.stackBoundCheck && sp == 255

/-- `x[7] <- u8(x[7] - 1)`: wraps 0 to 255 (42_stack.md R140). -/
def decSP (s : State) : State := s.writeReg SP (u8 ((s.reg SP).toNat + 256 - 1))

/-- `MemWrite(x[7], 1, v)` (42_stack.md R140; 43_control.md R151). -/
def storeAtSP (v : Byte) (s : State) : State := { s with mem := s.mem.write (s.reg SP) v }

/-- `MemRead(x[7], 1)` (42_stack.md R141; 43_control.md R152). -/
def State.loadAtSP (s : State) : Byte := s.mem.read (s.reg SP)

end Sys2Proof.Machine
end

