-- ==== Sys2Proof/Machine/Flags.lean ====
section
/-! DEFINITION. The flags logic: the compare, which is the only writer of the flags (10_state.md R29), and the host's
packed view of them (R31). -/

namespace Sys2Proof.Machine

/-- The flags CMP sets: the unsigned comparison of two bytes (44_alu_compare.md R171). -/
def compareFlags (va vb : Byte) : Flags where
  e := decide (va.toNat = vb.toNat)
  g := decide (va.toNat > vb.toNat)
  l := decide (va.toNat < vb.toNat)

/-- `FL <- …` (44_alu_compare.md R171). -/
def State.writeFlags (s : State) (f : Flags) : State := { s with flags := f }

/-- A boolean as one bit. -/
def bit (b : Bool) : BitVec 1 := BitVec.ofBool b

/-- `FLbyte`, for a host or waveform view only: bit 0 = E, bit 1 = G, bit 2 = L, bits 7..3 zero (10_state.md R31). No
instruction reads it. The positions are the spec's general knowledge (93_implementation_defined.md G4). PRESUMED, log
entry 11. -/
def Flags.toByte (f : Flags) : Byte := (0 : BitVec 5) ++ bit f.l ++ bit f.g ++ bit f.e

end Sys2Proof.Machine
end

