-- ==== Sys2Proof/Machine/Operands.lean ====
section
/-! DEFINITION. The operand forms: a register operand byte, checked (30_encoding.md R84; 40_execution_cycle.md R106),
and the immediate byte, taken as it is (R85). -/

namespace Sys2Proof.Machine

/-- The register an operand byte names, if it names one: the whole byte is compared, not masked (30_encoding.md R84). -/
def regIndex (a : Byte) : Option RegIdx :=
  if h : a.toNat < 8 then some ⟨a.toNat, h⟩ else none

/-- The operand check of formats `R` and `RI` for the instruction with opcode byte `op`, then its execute phase `k`
(40_execution_cycle.md R106). -/
def withReg (op a : Byte) (s : State) (k : RegIdx → Result) : Result :=
  match regIndex a with
  | some ra => k ra
  | none => .next (raise .invalidRegister op a.toNat s)

/-- The operand check of format `RR`: operand `a` before operand `b` (40_execution_cycle.md R106). -/
def withRegs (op a b : Byte) (s : State) (k : RegIdx → RegIdx → Result) : Result :=
  withReg op a s fun ra => withReg op b s fun rb => k ra rb

/-- The immediate operand: the byte, unsigned, neither extended nor scaled (30_encoding.md R85). -/
def immediate (b : Byte) : Byte := b

end Sys2Proof.Machine
end

