-- ==== Sys2Proof/Machine/Alu.lean ====
section
/-! DEFINITION. The ALU and the compare: CMP, ADD, MUL and, decoded only when `ALU_EXT_DECODE` is true, SUB, AND, OR,
XOR (44_alu_compare.md). -/

namespace Sys2Proof.Machine

/-- The 4-bit operation tag (44_alu_compare.md R170). -/
abbrev AluTag := BitVec 4

/-- ADD's tag. -/
def AluTag.add : AluTag := 0x0
/-- SUB's tag. -/
def AluTag.sub : AluTag := 0x1
/-- MUL's tag. -/
def AluTag.mul : AluTag := 0x2
/-- AND's tag. -/
def AluTag.and : AluTag := 0x8
/-- OR's tag. -/
def AluTag.or : AluTag := 0xA
/-- XOR's tag. -/
def AluTag.xor : AluTag := 0xB

/-- The ALU: a pure function of a tag and two bytes. `none` is the output `unsupported`
(44_alu_compare.md R170, R179). Every operation is exact on the integers and reduced modulo 256 (R180). -/
def alu (tag : AluTag) (va vb : Byte) : Option Byte :=
  if tag = AluTag.add then some (u8 (va.toNat + vb.toNat))
  else if tag = AluTag.sub then some (u8 (va.toNat + 256 - vb.toNat))
  else if tag = AluTag.mul then some (u8 (va.toNat * vb.toNat))
  else if tag = AluTag.and then some (va &&& vb)
  else if tag = AluTag.or then some (va ||| vb)
  else if tag = AluTag.xor then some (va ^^^ vb)
  else none

/-- An ALU instruction at its execute phase: both operands are read, then the result is written to the first named
register and the step advances; a tag the ALU does not support raises UnsupportedOperation before any write
(44_alu_compare.md R170, R179, R180; 60_exceptions.md R215). -/
def aluExecute (op : Byte) (tag : AluTag) (ra rb : RegIdx) (s : State) : State :=
  match alu tag (s.reg ra) (s.reg rb) with
  | some v => advance op (s.writeReg ra v)
  | none => raise .unsupportedOperation op tag.toNat s

/-- An ALU instruction: the operand check, then the execute phase. -/
def aluInstr (op : Byte) (tag : AluTag) (a b : Byte) (s : State) : Result :=
  withRegs op a b s fun ra rb => .next (aluExecute op tag ra rb s)

/-- ADD (44_alu_compare.md R172). -/
def execAdd (a b : Byte) (s : State) : Result := aluInstr (opcode .ADD) AluTag.add a b s

/-- MUL (44_alu_compare.md R173). -/
def execMul (a b : Byte) (s : State) : Result := aluInstr (opcode .MUL) AluTag.mul a b s

/-- SUB (44_alu_compare.md R175). -/
def execSub (a b : Byte) (s : State) : Result := aluInstr (opcode .SUB) AluTag.sub a b s

/-- AND (44_alu_compare.md R176). -/
def execAnd (a b : Byte) (s : State) : Result := aluInstr (opcode .AND) AluTag.and a b s

/-- OR (44_alu_compare.md R177). -/
def execOr (a b : Byte) (s : State) : Result := aluInstr (opcode .OR) AluTag.or a b s

/-- XOR (44_alu_compare.md R178). -/
def execXor (a b : Byte) (s : State) : Result := aluInstr (opcode .XOR) AluTag.xor a b s

/-- CMP (44_alu_compare.md R171): writes all three flags and no register. -/
def execCmp (a b : Byte) (s : State) : Result :=
  withRegs (opcode .CMP) a b s fun ra rb =>
    .next (advance (opcode .CMP) (s.writeFlags (compareFlags (s.reg ra) (s.reg rb))))

end Sys2Proof.Machine
end

