-- ==== Sys2Proof/Machine/Control.lean ====
section
/-! DEFINITION. Control transfer: CALL, RET, JMP, JEQ, JNE (43_control.md). -/

namespace Sys2Proof.Machine

/-- CALL at its execute phase, past its checks: push the return address, then jump to the named register, read after
the push (43_control.md R151; 92_eei_decisions.md D9; log entry 10). -/
def callExecute (ra : RegIdx) (s : State) : State :=
  let s1 := storeAtSP (u8 (nextSeq (opcode .CALL) s)) (decSP s)
  jumpTo (s1.reg ra) s1

/-- CALL (43_control.md R151). The return address is `pc + 2`; one that does not fit a byte raises InvalidAddress
before the stack check and before any write. -/
def execCall (a : Byte) (s : State) : Result :=
  withReg (opcode .CALL) a s fun ra =>
    if nextSeq (opcode .CALL) s > 255 then
      .next (raise .invalidAddress (opcode .CALL) (nextSeq (opcode .CALL) s) s)
    else if s.stackWouldOverflow then .next (raise .stackOverflow (opcode .CALL) 0 s)
    else .next (callExecute ra s)

/-- RET at its execute phase, past its check (43_control.md R152). -/
def retExecute (s : State) : State :=
  jumpTo s.loadAtSP (s.writeReg SP (u8 ((s.reg SP).toNat + 1)))

/-- RET (43_control.md R152). -/
def execRet (s : State) : Result :=
  if s.stackWouldUnderflow (s.reg SP) then .next (raise .stackUnderflow (opcode .RET) 255 s)
  else .next (retExecute s)

/-- JMP (43_control.md R153). -/
def execJmp (a : Byte) (s : State) : Result :=
  withReg (opcode .JMP) a s fun ra => .next (jumpTo (s.reg ra) s)

/-- A conditional jump: taken, `pc` is the named register; not taken, the sequential advance. The operand is checked
either way (43_control.md R154, R155; 40_execution_cycle.md R106). -/
def jumpIf (op : Byte) (taken : Bool) (a : Byte) (s : State) : Result :=
  withReg op a s fun ra => if taken then .next (jumpTo (s.reg ra) s) else .next (advance op s)

/-- JEQ (43_control.md R154). -/
def execJeq (a : Byte) (s : State) : Result := jumpIf (opcode .JEQ) s.flags.e a s

/-- JNE (43_control.md R155). -/
def execJne (a : Byte) (s : State) : Result := jumpIf (opcode .JNE) (!s.flags.e) a s

end Sys2Proof.Machine
end

