-- ==== Sys2Proof/Machine/DataIo.lean ====
section
/-! DEFINITION. Data movement and output: LDI and PRN (41_data_io.md). Neither touches memory (R130). -/

namespace Sys2Proof.Machine

/-- LDI (41_data_io.md R131). -/
def execLdi (a imm : Byte) (s : State) : Result :=
  withReg (opcode .LDI) a s fun ra => .next (advance (opcode .LDI) (s.writeReg ra (immediate imm)))

/-- PRN (41_data_io.md R133). -/
def execPrn (a : Byte) (s : State) : Result :=
  withReg (opcode .PRN) a s fun ra => .next (advance (opcode .PRN) (emit (s.reg ra) s))

end Sys2Proof.Machine
end

