-- ==== Sys2Proof/Machine/Halt.lean ====
section
/-! DEFINITION. Halt: HLT (45_halt.md). -/

namespace Sys2Proof.Machine

/-- HLT (45_halt.md R200): `pc` keeps the address of the HLT. -/
def execHlt (s : State) : Result := .next (halt s)

end Sys2Proof.Machine
end

