-- ==== Sys2Proof/Machine/Stack.lean ====
section
/-! DEFINITION. The stack: PUSH and POP (42_stack.md). Reads and writes stand in the order of each rule
(92_eei_decisions.md D9; log entry 10). -/

namespace Sys2Proof.Machine

/-- PUSH at its execute phase, past its check: the named register is read after the decrement (42_stack.md R140). -/
def pushExecute (ra : RegIdx) (s : State) : State :=
  let s1 := decSP s
  storeAtSP (s1.reg ra) s1

/-- PUSH (42_stack.md R140). -/
def execPush (a : Byte) (s : State) : Result :=
  withReg (opcode .PUSH) a s fun ra =>
    if s.stackWouldOverflow then .next (raise .stackOverflow (opcode .PUSH) 0 s)
    else .next (advance (opcode .PUSH) (pushExecute ra s))

/-- The value POP's increment will apply to: the popped byte when the named register is the stack pointer
(42_stack.md R141). -/
def popIncrementBase (ra : RegIdx) (s : State) : Byte := if ra = SP then s.loadAtSP else s.reg SP

/-- POP at its execute phase, past its check: the named register is written, then the stack pointer
(42_stack.md R141). -/
def popExecute (ra : RegIdx) (s : State) : State :=
  (s.writeReg ra s.loadAtSP).writeReg SP (u8 ((popIncrementBase ra s).toNat + 1))

/-- POP (42_stack.md R141). -/
def execPop (a : Byte) (s : State) : Result :=
  withReg (opcode .POP) a s fun ra =>
    if s.stackWouldUnderflow (popIncrementBase ra s) then .next (raise .stackUnderflow (opcode .POP) 255 s)
    else .next (advance (opcode .POP) (popExecute ra s))

end Sys2Proof.Machine
end

