-- ==== Sys2Proof/Machine/Cycle.lean ====
section
/-! DEFINITION. The execution cycle of a running core: fetch, decode, and the instruction (40_execution_cycle.md R113),
and how the host's fetch word is placed. -/

namespace Sys2Proof.Machine

/-- The longest instruction, in bytes (30_encoding.md R80). -/
def maxWidth : Nat := 3

/-- At most `n` bytes of memory at rising addresses from `a`, ending at address 255 (20_memory.md R60, R63). -/
def bytesFrom (m : Memory) (a : Nat) : Nat → List Byte
  | 0 => []
  | n + 1 => if a < 256 then Memory.read m (u8 a) :: bytesFrom m (a + 1) n else []

/-- The bytes the fetch unit offers the decoder: memory from `pc`, up to the longest instruction or the last address.
Memory is read as earlier instructions left it (20_memory.md R70). A byte the decoder does not ask for is as if not
read, since reads have no side effect (R66; log entry 9). -/
def State.fetchBytes (s : State) : List Byte := bytesFrom s.mem s.pc.toNat maxWidth

/-- `op <- MemRead(pc, 1)` (40_execution_cycle.md R101). -/
def State.fetchOpcode (s : State) : Byte := s.mem.read s.pc

/-- The fault of a fetch or decode that fails: IllegalInstruction with the opcode (40_execution_cycle.md R103), or
InvalidAddress with the address of the first operand byte past 255 (R102). -/
def raiseDecodeError (e : DecodeError) (s : State) : State :=
  match e with
  | .illegal op => raise .illegalInstruction op op.toNat s
  | .missing k => raise .invalidAddress s.fetchOpcode (s.pc.toNat + k) s

/-- One step of a running core (40_execution_cycle.md R113). -/
def cycle (s : State) : Result :=
  match decode s.params.aluExtDecode s.fetchBytes with
  | .ok (i, _) => exec i s
  | .error e => .next (raiseDecodeError e s)

/-- The byte is an opcode only with `ALU_EXT_DECODE` (30_encoding.md R86). -/
def isExtOpcode (op : Byte) : Bool := (decodeOpcode false op).isNone && (decodeOpcode true op).isSome

/-- Place a table word where the next step fetches, on a running core: what a load and a start leave
(60_exceptions.md R232, R233), at `pc`. A word of the extension is placed in a machine that has it, since no other
decodes it (30_encoding.md R86; log entry 3). -/
def placeFetchWord (s : State) (nbits w : Nat) : State :=
  { s with
    mem := s.mem.writeBytes s.pc.toNat (tableBytes nbits w)
    runstate := .running
    params := { s.params with
      aluExtDecode := s.params.aluExtDecode || isExtOpcode (u8 (w % 2 ^ nbits)) } }

end Sys2Proof.Machine
end

