-- ==== Sys2Proof/Machine/Step.lean ====
section
/-! DEFINITION. The step. A core that is not Running executes nothing (40_execution_cycle.md R100, R114). -/

namespace Sys2Proof.Machine

/-- One step. In Ready, Halted and Faulted no fetch occurs and no state changes (40_execution_cycle.md R114; log
entry 4). -/
def step (s : State) : Host.Outcome State Fault Refusal :=
  match s.runstate with
  | .running => cycle s
  | .ready => .next s
  | .halted => .next s
  | .faulted => .next s

/-- `s` with a table word stored where `step` fetches its next instruction, on a running core (log entry 3). -/
def State.withFetchWord (s : State) (nbits w : Nat) : State := placeFetchWord s nbits w

end Sys2Proof.Machine
end

