-- ==== Sys2Proof/Machine/HostPort.lean ====
section
/-! DEFINITION. What the host can do to the core and read from it (60_exceptions.md R230). These actions stand beside
`step`: a step takes no input from outside (40_execution_cycle.md R115; log entry 5). -/

namespace Sys2Proof.Machine

/-- The host's actions that can change the state (60_exceptions.md R230). -/
inductive HostAction where
  | reset
  | load (p : List Byte)
  | start
  deriving DecidableEq, Repr

/-- Reset: every piece of state takes its reset value, at any time (70_reset_and_hazards.md R240, R242). The parameters
are the machine's own and stay. -/
def hostReset (s : State) : State := State.resetWith s.params

/-- A load is accepted in Ready and when the bytes fit memory (60_exceptions.md R232). -/
def loadAccepted (p : List Byte) (s : State) : Bool :=
  decide (s.runstate = .ready) && decide (p.length ≤ 256)

/-- Load: `mem[i] <- p[i]`, or, refused, no change at all (60_exceptions.md R232). -/
def hostLoad (p : List Byte) (s : State) : State :=
  if loadAccepted p s then { s with mem := s.mem.writeBytes 0 p } else s

/-- Start: Ready becomes Running; elsewhere nothing changes (60_exceptions.md R233). -/
def hostStart (s : State) : State :=
  if s.runstate = .ready then { s with runstate := .running } else s

/-- One action of the host. -/
def hostAct (a : HostAction) (s : State) : State :=
  match a with
  | .reset => hostReset s
  | .load p => hostLoad p s
  | .start => hostStart s

/-- Status, readable at any time (60_exceptions.md R234). -/
def hostStatus (s : State) : RunState × FaultRecord := (s.runstate, s.fault)

/-- What an inspection shows (60_exceptions.md R234), with the packed view of the flags (10_state.md R31). -/
structure Inspection where
  regs : Vector Byte 8
  pc : Byte
  flags : Flags
  flagsByte : Byte
  mem : Memory
  out : List Byte
  deriving DecidableEq, Repr

/-- Inspection, possible when the core is not Running (60_exceptions.md R230, R234). -/
def hostInspect (s : State) : Option Inspection :=
  if s.runstate = .running then none
  else some { regs := s.regs, pc := s.pc, flags := s.flags, flagsByte := s.flags.toByte, mem := s.mem, out := s.out }

/-- The numeric label of a fault code in the report (60_exceptions.md R211, R235). -/
def FaultCode.number : FaultCode → Nat
  | .none => 0
  | .illegalInstruction => 1
  | .invalidRegister => 2
  | .invalidAddress => 3
  | .unsupportedOperation => 4
  | .stackOverflow => 5
  | .stackUnderflow => 6

end Sys2Proof.Machine
end

