-- ==== Sys2Proof/Safety.lean ====
section
/-! DEFINITION. The words the claims use: how a run ends, what an instruction leaves unchanged, how a step ends, and the
invariant of the machine. -/

namespace Sys2Proof.Machine

/-! ## How a run ends (60_exceptions.md R236) -/

/-- The run ended cleanly. -/
def State.endedClean (s : State) : Prop := s.runstate = .halted

/-- The run ended in failure. -/
def State.endedFaulted (s : State) : Prop := s.runstate = .faulted

/-- The core executes nothing (40_execution_cycle.md R114). -/
def State.stopped (s : State) : Prop := s.runstate ≠ .running

/-- `n` steps of the core (40_execution_cycle.md R116: a run is steps under fuel that is no state of the core). -/
def runSteps : Nat → State → Result
  | 0, s => .next s
  | n + 1, s =>
    match step s with
    | .next t => runSteps n t
    | .fault r => .fault r
    | .refused r => .refused r

/-! ## Frames -/

/-- Every register keeps its value. -/
def SameRegs (s t : State) : Prop := ∀ r : RegIdx, t.reg r = s.reg r

/-- Every register outside `ds` keeps its value. -/
def SameRegsBut (ds : List RegIdx) (s t : State) : Prop := ∀ r : RegIdx, r ∉ ds → t.reg r = s.reg r

/-- Every byte of memory reads as before. -/
def SameMem (s t : State) : Prop := ∀ a : Byte, t.mem.read a = s.mem.read a

/-- Every byte of memory outside address `x` reads as before. -/
def SameMemBut (x : Byte) (s t : State) : Prop := ∀ a : Byte, a ≠ x → t.mem.read a = s.mem.read a

/-- The flags and the parameters keep their values. -/
def SameFlags (s t : State) : Prop := t.flags = s.flags ∧ t.params = s.params

/-- The output sequence and the parameters keep their values. -/
def SameOut (s t : State) : Prop := t.out = s.out ∧ t.params = s.params

/-! ## How an instruction ends -/

/-- `t` is `s` after `raise F(info)` (60_exceptions.md R220), every field written out. -/
def Raised (c : FaultCode) (op : Byte) (info : Nat) (s t : State) : Prop :=
  t.runstate = .faulted ∧ t.fault.code = c ∧ t.fault.pc = s.pc ∧ t.fault.opcode = op ∧ t.fault.info.toNat = info ∧
  t.pc = s.pc ∧ t.regs = s.regs ∧ t.flags = s.flags ∧ t.mem = s.mem ∧ t.out = s.out ∧ t.params = s.params

/-- The sequential end of an instruction of width `w` with opcode byte `op`: the advance when the successor is an
address (40_execution_cycle.md R110), and the off-the-end fault when it is 256 (R111). -/
def EndsSequentially (op : Byte) (w : Nat) (s t : State) : Prop :=
  (s.pc.toNat + w ≤ 255 → t.pc.toNat = s.pc.toNat + w ∧ t.runstate = s.runstate ∧ t.fault = s.fault) ∧
  (s.pc.toNat + w = 256 →
    t.pc = s.pc ∧ t.runstate = .faulted ∧
    t.fault.code = .invalidAddress ∧ t.fault.pc = s.pc ∧ t.fault.opcode = op ∧ t.fault.info.toNat = 256)

/-- The end of a control transfer to `target` (40_execution_cycle.md R112; 43_control.md R150). -/
def EndsAt (target : Byte) (s t : State) : Prop :=
  t.pc = target ∧ t.runstate = s.runstate ∧ t.fault = s.fault

/-- The address a PUSH or CALL stores to: the stack pointer after the decrement (42_stack.md R140; 43_control.md
R151). -/
def storeAddress (s : State) : Byte := (decSP s).reg SP

/-- The operand bytes of `i` end at or before the last address, when `i` stands at `pc` (40_execution_cycle.md R102). -/
def Fits (i : Instr) (s : State) : Prop := s.pc.toNat + i.width ≤ 256

/-- `i` writes `pc` itself in state `s`: a control transfer that is taken (40_execution_cycle.md R108; 43_control.md
R151 to R155). -/
def instrTransfers (s : State) : Instr → Bool
  | .call _ => true
  | .ret => true
  | .jmp _ => true
  | .jeq _ => s.flags.e
  | .jne _ => !s.flags.e
  | .hlt => false
  | .push _ => false
  | .pop _ => false
  | .prn _ => false
  | .ldi _ _ => false
  | .add _ _ => false
  | .mul _ _ => false
  | .cmp _ _ => false
  | .sub _ _ => false
  | .and _ _ => false
  | .or _ _ => false
  | .xor _ _ => false

/-- `i` raises a stack fault in state `s` once its operands are legal (60_exceptions.md R216, R217; 42_stack.md R141 for
the value POP increments). -/
def instrStackFaults (s : State) : Instr → Bool
  | .push _ => s.params.stackBoundCheck && s.reg SP == 0
  | .call _ => s.params.stackBoundCheck && s.reg SP == 0
  | .ret => s.params.stackBoundCheck && s.reg SP == 255
  | .pop a => s.params.stackBoundCheck && (if a.toNat = 7 then s.mem.read (s.reg SP) else s.reg SP) == 255
  | .hlt => false
  | .prn _ => false
  | .jmp _ => false
  | .jeq _ => false
  | .jne _ => false
  | .ldi _ _ => false
  | .add _ _ => false
  | .mul _ _ => false
  | .cmp _ _ => false
  | .sub _ _ => false
  | .and _ _ => false
  | .or _ _ => false
  | .xor _ _ => false

/-- The execute phase of `i` in state `s` neither writes `pc` nor halts nor faults, so the instruction ends with the
sequential advance (40_execution_cycle.md R108, R110). -/
def EndsInAdvance (i : Instr) (s : State) : Prop :=
  i.wellFormed = true ∧ instrStackFaults s i = false ∧ instrTransfers s i = false ∧ i ≠ .hlt

/-- The numbers of the registers an instruction writes (the table of 10_state.md R24). -/
def instrWrites : Instr → List Nat
  | .ldi a _ => [a.toNat]
  | .pop a => [a.toNat, 7]
  | .push _ => [7]
  | .call _ => [7]
  | .ret => [7]
  | .add a _ => [a.toNat]
  | .mul a _ => [a.toNat]
  | .sub a _ => [a.toNat]
  | .and a _ => [a.toNat]
  | .or a _ => [a.toNat]
  | .xor a _ => [a.toNat]
  | .prn _ => []
  | .jmp _ => []
  | .jeq _ => []
  | .jne _ => []
  | .cmp _ _ => []
  | .hlt => []

/-! ## The invariant -/

/-- At most one flag is set (10_state.md R30). -/
def Flags.exclusive (f : Flags) : Prop :=
  (f.e = true → f.g = false ∧ f.l = false) ∧ (f.g = true → f.e = false ∧ f.l = false) ∧
  (f.l = true → f.e = false ∧ f.g = false)

/-- What the information of a fault record is for each code a program can meet (60_exceptions.md R211); `none` and
UnsupportedOperation are no code of a faulted core (R215). -/
def FaultRecord.describes (f : FaultRecord) : Prop :=
  match f.code with
  | .none => False
  | .illegalInstruction => f.info.toNat = f.opcode.toNat
  | .invalidRegister => 8 ≤ f.info.toNat ∧ f.info.toNat ≤ 255
  | .invalidAddress => f.info.toNat = 256
  | .unsupportedOperation => False
  | .stackOverflow => f.info.toNat = 0
  | .stackUnderflow => f.info.toNat = 255

/-- The fault record is cleared unless the core is Faulted (10_state.md R33, R37), and in Faulted it names the address
`pc` kept and a fault of the table (60_exceptions.md R211, R220). -/
def State.faultConsistent (s : State) : Prop :=
  (s.runstate ≠ .faulted → s.fault = FaultRecord.cleared) ∧
  (s.runstate = .faulted → s.fault.pc = s.pc ∧ s.fault.describes)

/-- The invariant of the machine. -/
def State.Inv (s : State) : Prop := s.mem.wf = true ∧ s.flags.exclusive ∧ s.faultConsistent

end Sys2Proof.Machine
end

