-- ==== Sys2Proof/Certificates/Slice0/Obligations.lean ====
section
/-! DEFINITION. The statements for the provers. An operand byte `a` and the register index `ra` it names are related by
`a.toNat = ra.val` (30_encoding.md R84). Every statement about an instruction's result has the completed instruction as
its conclusion, with all that it changes and its frame. -/

open Sys2Proof Sys2Proof.Machine

/-! ## Encoding -/

/-- A word of each of the 17 instructions, written out from the spec's opcode tables (30_encoding.md R86, R87; 41 to 45,
the Example lines), decodes to the instruction it stands for, so each opcode byte is tied to its mnemonic. The byte values
are the spec's general knowledge (93_implementation_defined.md G1, G2; log entry 1). -/
def Obligations.SpecWordsDecode : Prop :=
  decode false [0x01] = .ok (.hlt, []) ∧
  decode false [0x11] = .ok (.ret, []) ∧
  decode false [0x45, 0x00] = .ok (.push 0, []) ∧
  decode false [0x46, 0x01] = .ok (.pop 1, []) ∧
  decode false [0x47, 0x00] = .ok (.prn 0, []) ∧
  decode false [0x50, 0x01] = .ok (.call 1, []) ∧
  decode false [0x54, 0x02] = .ok (.jmp 2, []) ∧
  decode false [0x55, 0x02] = .ok (.jeq 2, []) ∧
  decode false [0x56, 0x03] = .ok (.jne 3, []) ∧
  decode false [0x82, 0x00, 0x09] = .ok (.ldi 0 9, []) ∧
  decode false [0xA0, 0x00, 0x01] = .ok (.add 0 1, []) ∧
  decode false [0xA2, 0x02, 0x05] = .ok (.mul 2 5, []) ∧
  decode false [0xA7, 0x03, 0x05] = .ok (.cmp 3 5, []) ∧
  decode true [0xA1, 0x02, 0x01] = .ok (.sub 2 1, []) ∧
  decode true [0xA8, 0x00, 0x01] = .ok (.and 0 1, []) ∧
  decode true [0xAA, 0x02, 0x01] = .ok (.or 2 1, []) ∧
  decode true [0xAB, 0x03, 0x01] = .ok (.xor 3 1, [])

/-- Every instruction of the opcode map, with every operand byte, decodes back from its bytes, and the bytes after it are
left alone (30_encoding.md R80 to R83, R90). -/
def Obligations.DecodeEncodeRoundTrip : Prop :=
  ∀ (ext : Bool) (i : Instr) (rest : List Byte), i.decodesUnder ext = true →
    decode ext (encode i ++ rest) = .ok (i, rest)

/-- The decoder reads nothing but the encodings of the opcode map: what it answers was encoded, byte for byte
(30_encoding.md R80 to R83, R89, R90). -/
def Obligations.DecodeReadsOnlyEncodings : Prop :=
  ∀ (ext : Bool) (bytes : List Byte) (i : Instr) (rest : List Byte), decode ext bytes = .ok (i, rest) →
    bytes = encode i ++ rest ∧ i.decodesUnder ext = true

/-- The legal opcodes are exactly the 13 bytes of R87, and the 4 of R86 when `ALU_EXT_DECODE` is true
(30_encoding.md R89, by the spec's decision D20; byte values: log entry 1). -/
def Obligations.LegalOpcodesExactly : Prop :=
  ∀ (ext : Bool) (op : Byte), (decodeOpcode ext op).isSome = true ↔
    op ∈ ([0x01, 0x11, 0x45, 0x46, 0x47, 0x50, 0x54, 0x55, 0x56, 0x82, 0xA0, 0xA2, 0xA7] : List Byte) ∨
      (ext = true ∧ op ∈ ([0xA1, 0xA8, 0xAA, 0xAB] : List Byte))

/-- For every legal opcode the two high bits plus one are the width of its format, and they are never 3
(30_encoding.md R82, R95). -/
def Obligations.OpcodeTopBitsGiveWidth : Prop :=
  ∀ (ext : Bool) (op : Byte) (m : Mnemonic), decodeOpcode ext op = some m →
    op.toNat / 64 ≠ 3 ∧
    (m ∈ ([.RET, .HLT] : List Mnemonic) → op.toNat / 64 + 1 = 1) ∧
    (m ∈ ([.PRN, .PUSH, .POP, .CALL, .JMP, .JEQ, .JNE] : List Mnemonic) → op.toNat / 64 + 1 = 2) ∧
    (m ∈ ([.CMP, .ADD, .MUL, .SUB, .AND, .OR, .XOR, .LDI] : List Mnemonic) → op.toNat / 64 + 1 = 3)

/-! ## The execution cycle -/

/-- A step of a running core is the decoded instruction, and nothing is added around it: the operand check, the execute
phase and the advance are in `exec` (40_execution_cycle.md R113). -/
def Obligations.StepRunsDecodedInstruction : Prop :=
  ∀ (s : State) (i : Instr) (rest : List Byte), s.runstate = .running →
    decode s.params.aluExtDecode s.fetchBytes = .ok (i, rest) → step s = exec i s

/-- When the bytes of memory at `pc` are an instruction's encoding, a running core's step is that instruction
(40_execution_cycle.md R113; 30_encoding.md R81). -/
def Obligations.StepRunsInstructionInMemory : Prop :=
  ∀ (s : State) (i : Instr), s.runstate = .running → i.decodesUnder s.params.aluExtDecode = true →
    s.pc.toNat + (encode i).length ≤ 256 →
    (∀ (k : Nat) (hk : k < (encode i).length), s.mem.read (u8 (s.pc.toNat + k)) = (encode i)[k]) →
    step s = exec i s

/-- Operand fetch: the operands of a legal opcode are the bytes at `pc + 1` and `pc + 2`, as many as its width asks for
(40_execution_cycle.md R104). -/
def Obligations.OperandsAreTheBytesAfterTheOpcode : Prop :=
  ∀ (s : State) (m : Mnemonic), s.runstate = .running →
    decodeOpcode s.params.aluExtDecode (s.mem.read s.pc) = some m →
    s.pc.toNat + widthOf (s.mem.read s.pc) ≤ 256 →
    ∃ i, step s = exec i s ∧ i.mnemonic = m ∧
      (widthOf (s.mem.read s.pc) = 1 → i.operands = []) ∧
      (widthOf (s.mem.read s.pc) = 2 → i.operands = [s.mem.read (u8 (s.pc.toNat + 1))]) ∧
      (widthOf (s.mem.read s.pc) = 3 →
        i.operands = [s.mem.read (u8 (s.pc.toNat + 1)), s.mem.read (u8 (s.pc.toNat + 2))])

/-- A byte that is not in the opcode map raises IllegalInstruction with the opcode as information, wherever it stands
(also where operand bytes would lie past the end), and `pc` keeps the address of the opcode
(40_execution_cycle.md R103). -/
def Obligations.IllegalOpcodeFaults : Prop :=
  ∀ s : State, s.runstate = .running → decodeOpcode s.params.aluExtDecode (s.mem.read s.pc) = none →
    ∃ t, step s = .next t ∧ Raised .illegalInstruction (s.mem.read s.pc) (s.mem.read s.pc).toNat s t

/-- A legal opcode whose operand bytes would lie past address 255 raises InvalidAddress, always with information 256,
before anything is used or written (40_execution_cycle.md R102, by the spec's decision D5). -/
def Obligations.OperandPastEndFaults : Prop :=
  ∀ (s : State) (m : Mnemonic), s.runstate = .running →
    decodeOpcode s.params.aluExtDecode (s.mem.read s.pc) = some m →
    256 < s.pc.toNat + widthOf (s.mem.read s.pc) →
    ∃ t, step s = .next t ∧ Raised .invalidAddress (s.mem.read s.pc) 256 s t

/-- Every instruction with a register operand byte above 7 raises InvalidRegister and writes nothing; of two the first is
named; a conditional jump that would not be taken is no exception (40_execution_cycle.md R106, by the spec's decisions
D4 and D22). -/
def Obligations.InvalidRegisterFaults : Prop :=
  ∀ (i : Instr) (s : State) (b : Byte), i.firstBadOperand = some b →
    ∃ t, exec i s = .next t ∧ Raised .invalidRegister i.opcodeByte b.toNat s t

/-- In Ready, Halted and Faulted nothing executes and no state changes, however many steps are taken
(40_execution_cycle.md R114). -/
def Obligations.StoppedCoreExecutesNothing : Prop :=
  ∀ (s : State) (n : Nat), s.runstate = .ready ∨ s.runstate = .halted ∨ s.runstate = .faulted →
    runSteps n s = .next s

/-- Sequential advance: when the execute phase neither wrote `pc` nor halted nor faulted, and `pc + w` is at most 255,
`pc` becomes `pc + w` and the core stays Running (40_execution_cycle.md R110). -/
def Obligations.SequentialAdvance : Prop :=
  ∀ (i : Instr) (s : State), s.runstate = .running → EndsInAdvance i s → s.pc.toNat + i.width ≤ 255 →
    ∃ t, exec i s = .next t ∧ t.pc.toNat = s.pc.toNat + i.width ∧ t.runstate = .running

/-- Off the end: when that successor is 256, the core is Faulted with InvalidAddress 256, `pc` keeps the instruction's
address, and the instruction's effects are the ones it has at any other address, here at 0 (40_execution_cycle.md R111,
by the spec's decision D6). -/
def Obligations.OffTheEndKeepsEffects : Prop :=
  ∀ (i : Instr) (s : State), EndsInAdvance i s → s.pc.toNat + i.width = 256 →
    ∃ t t0, exec i s = .next t ∧ exec i { s with pc := 0 } = .next t0 ∧
      t.runstate = .faulted ∧ t.fault.code = .invalidAddress ∧ t.fault.pc = s.pc ∧
      t.fault.opcode = i.opcodeByte ∧ t.fault.info.toNat = 256 ∧
      t = { t0 with pc := s.pc, runstate := .faulted, fault := t.fault }

/-- A step of a running core ends in Running, Halted or Faulted: it always has a next state, and never returns to Ready
(40_execution_cycle.md R100). -/
def Obligations.StepEndsRunningHaltedOrFaulted : Prop :=
  ∀ s : State, s.runstate = .running →
    ∃ t, step s = .next t ∧ (t.runstate = .running ∨ t.runstate = .halted ∨ t.runstate = .faulted)

/-- No step changes the hardware's parameters (40_execution_cycle.md R115; log entry 2). -/
def Obligations.StepKeepsParameters : Prop :=
  ∀ s t : State, step s = .next t → t.params = s.params

/-- The output is write-only: a step appends at most one byte, and neither that byte nor any other state depends on what
was emitted before (10_state.md R34, R35; 40_execution_cycle.md R115). -/
def Obligations.OutputIsWriteOnly : Prop :=
  ∀ s t : State, step s = .next t →
    ∃ e : List Byte, e.length ≤ 1 ∧ t.out = s.out ++ e ∧
      ∀ p : List Byte, step { s with out := p } = .next { t with out := p ++ e }

/-- The fault record is never read: a running core's step with another record differs in the record alone, and not even
there if the step faults (10_state.md R35; 60_exceptions.md R220). -/
def Obligations.FaultRecordIsNeverRead : Prop :=
  ∀ (s t : State) (f : FaultRecord), s.runstate = .running → step s = .next t →
    (t.runstate = .faulted → step { s with fault := f } = .next t) ∧
    (t.runstate ≠ .faulted → step { s with fault := f } = .next { t with fault := f })

/-! ## Rules of the whole machine -/

/-- Flags: CMP alone writes them, setting exactly one when its operands are registers; no other instruction and no fault
changes them; JEQ and JNE alone read them, and only Equal (10_state.md R29). -/
def Obligations.FlagsBelongToCompare : Prop :=
  (∀ (i : Instr) (s t : State), exec i s = .next t → i.mnemonic ≠ .CMP → t.flags = s.flags) ∧
  (∀ (a b : Byte) (s t : State), exec (.cmp a b) s = .next t →
    ((Instr.cmp a b).wellFormed = true →
      t.flags = ⟨true, false, false⟩ ∨ t.flags = ⟨false, true, false⟩ ∨ t.flags = ⟨false, false, true⟩) ∧
    ((Instr.cmp a b).wellFormed = false → t.flags = s.flags)) ∧
  (∀ s t : State, step s = .next t → t.flags ≠ s.flags →
    ∃ a b rest, decode s.params.aluExtDecode s.fetchBytes = .ok (.cmp a b, rest)) ∧
  (∀ (i : Instr) (s t : State) (f : Flags), exec i s = .next t →
    ((i.mnemonic = .JEQ ∨ i.mnemonic = .JNE) → f.e = s.flags.e) →
    ∃ t', exec i { s with flags := f } = .next t' ∧ { t' with flags := t.flags } = t)

/-- Only PUSH and CALL store to memory, and only at the stack pointer after its decrement (20_memory.md R61, R71). -/
def Obligations.OnlyPushAndCallStore : Prop :=
  ∀ (i : Instr) (s t : State), exec i s = .next t →
    (i.mnemonic ≠ .PUSH ∧ i.mnemonic ≠ .CALL → SameMem s t) ∧
    (i.mnemonic = .PUSH ∨ i.mnemonic = .CALL → SameMemBut (storeAddress s) s t)

/-- Each instruction writes no register but those of its row in the register access table (10_state.md R24). -/
def Obligations.RegistersWrittenAsTabled : Prop :=
  ∀ (i : Instr) (s t : State), exec i s = .next t →
    ∀ r : RegIdx, r.val ∉ instrWrites i → t.reg r = s.reg r

/-- Only PRN emits (10_state.md R34; 41_data_io.md R132). -/
def Obligations.OnlyPrnEmits : Prop :=
  ∀ (i : Instr) (s t : State), exec i s = .next t → i.mnemonic ≠ .PRN → t.out = s.out

/-- A fault leaves everything but the run state and the fault record as it was, unless it is the off-the-end
InvalidAddress of an instruction that ends with the sequential advance, which CALL never does; in both cases `pc` stays,
and the record names the instruction's address and opcode (60_exceptions.md R214, R220, R221, by the spec's decisions D6,
D7, D11 and D12). -/
def Obligations.FaultsArePrecise : Prop :=
  ∀ s t : State, s.runstate = .running → step s = .next t → t.runstate = .faulted →
    t.pc = s.pc ∧ t.fault.pc = s.pc ∧ t.fault.opcode = s.mem.read s.pc ∧
    (t = { s with runstate := .faulted, fault := t.fault } ∨
      (t.fault.code = .invalidAddress ∧ ∃ i rest, decode s.params.aluExtDecode s.fetchBytes = .ok (i, rest) ∧
        i.mnemonic ≠ .CALL ∧ EndsInAdvance i s ∧ s.pc.toNat + i.width = 256))

/-- Each fault a step can end in has its cause and its information in the state before (60_exceptions.md R211 to R217;
42_stack.md R141 for the value POP increments): an illegal opcode; a register operand above 7; an operand byte past 255,
a CALL at 254, or a sequential advance to 256; with the check on, a PUSH or CALL with the stack pointer 0; with it on, a
RET or POP whose increment would pass 255. UnsupportedOperation is never one (R215). -/
def Obligations.FaultsHaveTheirCause : Prop :=
  ∀ s t : State, s.runstate = .running → step s = .next t → t.runstate = .faulted →
    match t.fault.code with
    | .none => False
    | .illegalInstruction =>
        decodeOpcode s.params.aluExtDecode (s.mem.read s.pc) = none ∧
        t.fault.info.toNat = (s.mem.read s.pc).toNat
    | .invalidRegister =>
        ∃ i rest b, decode s.params.aluExtDecode s.fetchBytes = .ok (i, rest) ∧ i.firstBadOperand = some b ∧
          t.fault.info.toNat = b.toNat
    | .invalidAddress =>
        t.fault.info.toNat = 256 ∧
        ((∃ m, decodeOpcode s.params.aluExtDecode (s.mem.read s.pc) = some m ∧
            256 < s.pc.toNat + widthOf (s.mem.read s.pc)) ∨
          (∃ a rest, decode s.params.aluExtDecode s.fetchBytes = .ok (.call a, rest) ∧
            (Instr.call a).wellFormed = true ∧ s.pc.toNat = 254) ∨
          (∃ i rest, decode s.params.aluExtDecode s.fetchBytes = .ok (i, rest) ∧ EndsInAdvance i s ∧
            s.pc.toNat + i.width = 256))
    | .unsupportedOperation => False
    | .stackOverflow =>
        s.params.stackBoundCheck = true ∧ t.fault.info.toNat = 0 ∧ s.reg SP = 0 ∧
        ∃ i rest, decode s.params.aluExtDecode s.fetchBytes = .ok (i, rest) ∧ i.wellFormed = true ∧
          (i.mnemonic = .PUSH ∨ i.mnemonic = .CALL ∧ s.pc.toNat ≤ 253)
    | .stackUnderflow =>
        s.params.stackBoundCheck = true ∧ t.fault.info.toNat = 255 ∧
        ∃ i rest, decode s.params.aluExtDecode s.fetchBytes = .ok (i, rest) ∧ i.wellFormed = true ∧
          (i = .ret ∧ s.reg SP = 255 ∨
            ∃ a, i = .pop a ∧ (a.toNat ≠ 7 → s.reg SP = 255) ∧ (a.toNat = 7 → s.mem.read (s.reg SP) = 255))

/-- With the stack check on, no instruction changes the byte at address 255 (42_stack.md R143). -/
def Obligations.CheckedStackNeverStoresAtTop : Prop :=
  ∀ (i : Instr) (s t : State), s.params.stackBoundCheck = true → exec i s = .next t →
    t.mem.read 255 = s.mem.read 255

/-- The invariant (canonical memory, exclusive flags, a consistent fault record) is kept by every step from every state
that has it (10_state.md R30, R33; 60_exceptions.md R211, R220). -/
def Obligations.StepKeepsInvariant : Prop :=
  ∀ s t : State, s.Inv → step s = .next t → t.Inv

/-- The invariant holds after reset, for every value of the parameters (10_state.md R37). -/
def Obligations.ResetHasInvariant : Prop :=
  ∀ p : Params, (State.resetWith p).Inv

/-- The invariant is kept by every action of the host (60_exceptions.md R230). -/
def Obligations.HostActionsKeepInvariant : Prop :=
  ∀ (act : HostAction) (s : State), s.Inv → (hostAct act s).Inv

/-! ## Data movement and output -/

/-- LDI stores the immediate byte, as it is, in the named register (41_data_io.md R131). -/
def Obligations.LdiLoadsImmediate : Prop :=
  ∀ (a imm : Byte) (ra : RegIdx) (s : State), a.toNat = ra.val → Fits (.ldi a imm) s →
    ∃ t, exec (.ldi a imm) s = .next t ∧
      t.reg ra = imm ∧ SameRegsBut [ra] s t ∧ SameMem s t ∧ SameFlags s t ∧ SameOut s t ∧
      EndsSequentially (opcode .LDI) 3 s t

/-- PRN appends the register's byte to the output (41_data_io.md R132, R133). -/
def Obligations.PrnEmitsRegister : Prop :=
  ∀ (a : Byte) (ra : RegIdx) (s : State), a.toNat = ra.val → Fits (.prn a) s →
    ∃ t, exec (.prn a) s = .next t ∧
      t.out = s.out ++ [s.reg ra] ∧ SameRegs s t ∧ SameMem s t ∧ SameFlags s t ∧
      EndsSequentially (opcode .PRN) 2 s t

/-! ## ALU and compare -/

/-- ADD stores the sum modulo 256 in the first named register and writes no flag (44_alu_compare.md R172). -/
def Obligations.AddStoresSum : Prop :=
  ∀ (a b : Byte) (ra rb : RegIdx) (s : State), a.toNat = ra.val → b.toNat = rb.val → Fits (.add a b) s →
    ∃ t, exec (.add a b) s = .next t ∧
      (t.reg ra).toNat = ((s.reg ra).toNat + (s.reg rb).toNat) % 256 ∧
      SameRegsBut [ra] s t ∧ SameMem s t ∧ SameFlags s t ∧ SameOut s t ∧ EndsSequentially (opcode .ADD) 3 s t

/-- MUL stores the low byte of the product in the first named register and writes no flag (44_alu_compare.md R173). -/
def Obligations.MulStoresLowByte : Prop :=
  ∀ (a b : Byte) (ra rb : RegIdx) (s : State), a.toNat = ra.val → b.toNat = rb.val → Fits (.mul a b) s →
    ∃ t, exec (.mul a b) s = .next t ∧
      (t.reg ra).toNat = ((s.reg ra).toNat * (s.reg rb).toNat) % 256 ∧
      SameRegsBut [ra] s t ∧ SameMem s t ∧ SameFlags s t ∧ SameOut s t ∧ EndsSequentially (opcode .MUL) 3 s t

/-- SUB stores the difference, a borrow wrapping, in the first named register and writes no flag (44_alu_compare.md
R175, by the spec's decision D10). -/
def Obligations.SubStoresDifference : Prop :=
  ∀ (a b : Byte) (ra rb : RegIdx) (s : State), a.toNat = ra.val → b.toNat = rb.val → Fits (.sub a b) s →
    ∃ t, exec (.sub a b) s = .next t ∧
      ((t.reg ra).toNat : Int) = (((s.reg ra).toNat : Int) - ((s.reg rb).toNat : Int)) % 256 ∧
      SameRegsBut [ra] s t ∧ SameMem s t ∧ SameFlags s t ∧ SameOut s t ∧ EndsSequentially (opcode .SUB) 3 s t

/-- AND, OR and XOR store the bitwise result, bit by bit, in the first named register and write no flag
(44_alu_compare.md R176 to R178, by the spec's decision D10). -/
def Obligations.BitwiseStoresEachBit : Prop :=
  ∀ (a b : Byte) (ra rb : RegIdx) (s : State), a.toNat = ra.val → b.toNat = rb.val → s.pc.toNat + 3 ≤ 256 →
    (∃ t, exec (.and a b) s = .next t ∧
      (∀ k < 8, (t.reg ra).getLsbD k = ((s.reg ra).getLsbD k && (s.reg rb).getLsbD k)) ∧
      SameRegsBut [ra] s t ∧ SameMem s t ∧ SameFlags s t ∧ SameOut s t ∧ EndsSequentially (opcode .AND) 3 s t) ∧
    (∃ t, exec (.or a b) s = .next t ∧
      (∀ k < 8, (t.reg ra).getLsbD k = ((s.reg ra).getLsbD k || (s.reg rb).getLsbD k)) ∧
      SameRegsBut [ra] s t ∧ SameMem s t ∧ SameFlags s t ∧ SameOut s t ∧ EndsSequentially (opcode .OR) 3 s t) ∧
    (∃ t, exec (.xor a b) s = .next t ∧
      (∀ k < 8, (t.reg ra).getLsbD k = ((s.reg ra).getLsbD k != (s.reg rb).getLsbD k)) ∧
      SameRegsBut [ra] s t ∧ SameMem s t ∧ SameFlags s t ∧ SameOut s t ∧ EndsSequentially (opcode .XOR) 3 s t)

/-- CMP sets Equal, Greater and Less by the unsigned comparison of two registers and writes no register
(44_alu_compare.md R171, by the spec's decision D21). -/
def Obligations.CmpSetsFlags : Prop :=
  ∀ (a b : Byte) (ra rb : RegIdx) (s : State), a.toNat = ra.val → b.toNat = rb.val → Fits (.cmp a b) s →
    ∃ t, exec (.cmp a b) s = .next t ∧
      (t.flags.e = true ↔ (s.reg ra).toNat = (s.reg rb).toNat) ∧
      (t.flags.g = true ↔ (s.reg rb).toNat < (s.reg ra).toNat) ∧
      (t.flags.l = true ↔ (s.reg ra).toNat < (s.reg rb).toNat) ∧
      SameRegs s t ∧ SameMem s t ∧ SameOut s t ∧ EndsSequentially (opcode .CMP) 3 s t

/-- The ALU port: six tags with their results modulo 256, and every other tag unsupported (44_alu_compare.md R170, by
the spec's decision D34). -/
def Obligations.AluPort : Prop :=
  ∀ (tag : AluTag) (va vb : Byte),
    ((alu tag va vb).isSome = true ↔ tag.toNat ∈ [0x0, 0x1, 0x2, 0x8, 0xA, 0xB]) ∧
    (∀ v, alu tag va vb = some v →
      (tag.toNat = 0x0 → v.toNat = (va.toNat + vb.toNat) % 256) ∧
      (tag.toNat = 0x1 → v.toNat = (va.toNat + 256 - vb.toNat) % 256) ∧
      (tag.toNat = 0x2 → v.toNat = va.toNat * vb.toNat % 256) ∧
      (tag.toNat = 0x8 → v = va &&& vb) ∧ (tag.toNat = 0xA → v = va ||| vb) ∧ (tag.toNat = 0xB → v = va ^^^ vb))

/-- An ALU instruction whose tag the ALU does not support raises UnsupportedOperation, with the tag, before any write
(44_alu_compare.md R179, by the spec's decision D25). -/
def Obligations.UnsupportedTagFaults : Prop :=
  ∀ (op : Byte) (tag : AluTag) (a b : Byte) (ra rb : RegIdx) (s : State), a.toNat = ra.val → b.toNat = rb.val →
    tag.toNat ∉ [0x0, 0x1, 0x2, 0x8, 0xA, 0xB] →
    ∃ t, aluInstr op tag a b s = .next t ∧ Raised .unsupportedOperation op tag.toNat s t

/-! ## The stack -/

/-- PUSH decrements the stack pointer and stores the named register, read after the decrement, at the new stack pointer;
with the check off, 0 wraps to 255 (42_stack.md R140, by the spec's decisions D8 and D9). -/
def Obligations.PushStoresRegister : Prop :=
  ∀ (a : Byte) (ra : RegIdx) (s : State), a.toNat = ra.val → Fits (.push a) s → s.mem.wf = true →
    (s.params.stackBoundCheck = true → s.reg SP ≠ 0) →
    ∃ t, exec (.push a) s = .next t ∧
      (t.reg SP).toNat = ((s.reg SP).toNat + 255) % 256 ∧ t.reg SP = storeAddress s ∧ SameRegsBut [SP] s t ∧
      t.mem.read (storeAddress s) = (if ra = SP then t.reg SP else s.reg ra) ∧ SameMemBut (storeAddress s) s t ∧
      SameFlags s t ∧ SameOut s t ∧ EndsSequentially (opcode .PUSH) 2 s t

/-- POP into a register other than the stack pointer reads memory at the stack pointer and increments it; with the check
off, 255 wraps to 0 (42_stack.md R141, by the spec's decision D8). -/
def Obligations.PopLoadsRegister : Prop :=
  ∀ (a : Byte) (ra : RegIdx) (s : State), a.toNat = ra.val → ra ≠ SP → Fits (.pop a) s →
    (s.params.stackBoundCheck = true → s.reg SP ≠ 255) →
    ∃ t, exec (.pop a) s = .next t ∧
      t.reg ra = s.mem.read (s.reg SP) ∧ (t.reg SP).toNat = ((s.reg SP).toNat + 1) % 256 ∧
      SameRegsBut [ra, SP] s t ∧ SameMem s t ∧ SameFlags s t ∧ SameOut s t ∧
      EndsSequentially (opcode .POP) 2 s t

/-- POP R7 leaves the popped byte plus one in the stack pointer (42_stack.md R141, by the spec's decisions D8 and D9;
log entry 10). -/
def Obligations.PopStackPointer : Prop :=
  ∀ (a : Byte) (s : State), a.toNat = 7 → Fits (.pop a) s →
    (s.params.stackBoundCheck = true → s.mem.read (s.reg SP) ≠ 255) →
    ∃ t, exec (.pop a) s = .next t ∧
      (t.reg SP).toNat = ((s.mem.read (s.reg SP)).toNat + 1) % 256 ∧
      SameRegsBut [SP] s t ∧ SameMem s t ∧ SameFlags s t ∧ SameOut s t ∧ EndsSequentially (opcode .POP) 2 s t

/-- With the check on and the stack pointer 0, PUSH raises StackOverflow before any write, and so does CALL where its
return address fits a byte (60_exceptions.md R216, by the spec's decision D8). -/
def Obligations.StackOverflowFaults : Prop :=
  ∀ (a : Byte) (s : State), a.toNat < 8 → s.params.stackBoundCheck = true → s.reg SP = 0 →
    (∃ t, exec (.push a) s = .next t ∧ Raised .stackOverflow (opcode .PUSH) 0 s t) ∧
    (s.pc.toNat ≤ 253 → ∃ t, exec (.call a) s = .next t ∧ Raised .stackOverflow (opcode .CALL) 0 s t)

/-- With the check on, an increment that would pass 255 raises StackUnderflow before any write: RET and POP of a
register other than R7 with the stack pointer 255, and POP R7 when the popped byte is 255 (60_exceptions.md R217;
42_stack.md R141; by the spec's decision D8). -/
def Obligations.StackUnderflowFaults : Prop :=
  ∀ s : State, s.params.stackBoundCheck = true →
    (s.reg SP = 255 → ∃ t, exec .ret s = .next t ∧ Raised .stackUnderflow (opcode .RET) 255 s t) ∧
    (∀ a : Byte, a.toNat < 7 → s.reg SP = 255 →
      ∃ t, exec (.pop a) s = .next t ∧ Raised .stackUnderflow (opcode .POP) 255 s t) ∧
    (∀ a : Byte, a.toNat = 7 → s.mem.read (s.reg SP) = 255 →
      ∃ t, exec (.pop a) s = .next t ∧ Raised .stackUnderflow (opcode .POP) 255 s t)

/-- Stack round-trip: a PUSH of a register other than R7 and an immediately following POP into a register other than R7
give the pushed value and the stack pointer of before (42_stack.md R142). -/
def Obligations.PushPopRoundTrip : Prop :=
  ∀ (a b : Byte) (ri rj : RegIdx) (s : State), a.toNat = ri.val → b.toNat = rj.val → ri ≠ SP → rj ≠ SP →
    s.mem.wf = true → s.pc.toNat ≤ 252 → (s.params.stackBoundCheck = true → s.reg SP ≠ 0) →
    ∃ t u, exec (.push a) s = .next t ∧ t.pc.toNat = s.pc.toNat + 2 ∧ exec (.pop b) t = .next u ∧
      u.reg rj = s.reg ri ∧ u.reg SP = s.reg SP

/-! ## Control transfer -/

/-- CALL pushes `pc + 2` and jumps to the named register, read after the push (43_control.md R151, by the spec's
decisions D7, D8 and D9). -/
def Obligations.CallPushesReturnAddress : Prop :=
  ∀ (a : Byte) (ra : RegIdx) (s : State), a.toNat = ra.val → s.pc.toNat ≤ 253 → s.mem.wf = true →
    (s.params.stackBoundCheck = true → s.reg SP ≠ 0) →
    ∃ t, exec (.call a) s = .next t ∧
      (t.reg SP).toNat = ((s.reg SP).toNat + 255) % 256 ∧ t.reg SP = storeAddress s ∧ SameRegsBut [SP] s t ∧
      (t.mem.read (storeAddress s)).toNat = s.pc.toNat + 2 ∧ SameMemBut (storeAddress s) s t ∧
      SameFlags s t ∧ SameOut s t ∧ EndsAt (if ra = SP then t.reg SP else s.reg ra) s t

/-- CALL at address 254, whose return address does not fit a byte, raises InvalidAddress 256 before the stack check and
before any write (43_control.md R151, by the spec's decision D7). -/
def Obligations.CallReturnAddressFaults : Prop :=
  ∀ (a : Byte) (s : State), a.toNat < 8 → s.pc.toNat = 254 →
    ∃ t, exec (.call a) s = .next t ∧ Raised .invalidAddress (opcode .CALL) 256 s t

/-- RET pops an address into `pc`; with the check off, 255 wraps to 0 (43_control.md R152, by the spec's decision
D8). -/
def Obligations.RetPopsProgramCounter : Prop :=
  ∀ s : State, (s.params.stackBoundCheck = true → s.reg SP ≠ 255) →
    ∃ t, exec .ret s = .next t ∧
      (t.reg SP).toNat = ((s.reg SP).toNat + 1) % 256 ∧ SameRegsBut [SP] s t ∧ SameMem s t ∧ SameFlags s t ∧
      SameOut s t ∧ EndsAt (s.mem.read (s.reg SP)) s t

/-- JMP sets `pc` to the named register and changes nothing else (43_control.md R153). -/
def Obligations.JmpSetsProgramCounter : Prop :=
  ∀ (a : Byte) (ra : RegIdx) (s : State), a.toNat = ra.val →
    ∃ t, exec (.jmp a) s = .next t ∧ SameRegs s t ∧ SameMem s t ∧ SameFlags s t ∧ SameOut s t ∧
      EndsAt (s.reg ra) s t

/-- JEQ jumps to the named register if Equal is set, else advances by 2, and changes nothing else
(43_control.md R154). -/
def Obligations.JeqJumpsIfEqual : Prop :=
  ∀ (a : Byte) (ra : RegIdx) (s : State), a.toNat = ra.val → Fits (.jeq a) s →
    ∃ t, exec (.jeq a) s = .next t ∧ SameRegs s t ∧ SameMem s t ∧ SameFlags s t ∧ SameOut s t ∧
      (s.flags.e = true → EndsAt (s.reg ra) s t) ∧
      (s.flags.e = false → EndsSequentially (opcode .JEQ) 2 s t)

/-- JNE jumps to the named register if Equal is clear, else advances by 2, and changes nothing else
(43_control.md R155). -/
def Obligations.JneJumpsIfNotEqual : Prop :=
  ∀ (a : Byte) (ra : RegIdx) (s : State), a.toNat = ra.val → Fits (.jne a) s →
    ∃ t, exec (.jne a) s = .next t ∧ SameRegs s t ∧ SameMem s t ∧ SameFlags s t ∧ SameOut s t ∧
      (s.flags.e = false → EndsAt (s.reg ra) s t) ∧
      (s.flags.e = true → EndsSequentially (opcode .JNE) 2 s t)

/-- Call/return round-trip: a CALL in memory at `pc ≤ 253` to an address that holds a RET, with no stack fault, resumes
two steps later at `pc + 2` with the stack pointer of before (43_control.md R156). -/
def Obligations.CallReturnRoundTrip : Prop :=
  ∀ (s : State) (ra : RegIdx), s.runstate = .running → s.mem.wf = true → s.pc.toNat ≤ 253 →
    s.mem.read s.pc = opcode .CALL → (s.mem.read (u8 (s.pc.toNat + 1))).toNat = ra.val →
    (s.params.stackBoundCheck = true → s.reg SP ≠ 0) →
    ∃ t, step s = .next t ∧
      (t.mem.read t.pc = opcode .RET →
        ∃ u, step t = .next u ∧ u.pc.toNat = s.pc.toNat + 2 ∧ SameRegs s u ∧ u.runstate = .running)

/-! ## Halt -/

/-- HLT makes the core Halted and changes nothing else: `pc` keeps the address of the HLT (45_halt.md R200, by the spec's
decision D19). -/
def Obligations.HltHalts : Prop :=
  ∀ s : State, ∃ t, exec .hlt s = .next t ∧
    t.runstate = .halted ∧ t.pc = s.pc ∧ t.fault = s.fault ∧ SameRegs s t ∧ SameMem s t ∧ SameFlags s t ∧ SameOut s t

/-! ## Memory -/

/-- A read returns the most recent write to its address, or the reset value 0x00 if there was none, for every sequence
of writes from reset memory (20_memory.md R66, R68). -/
def Obligations.ReadReturnsLastWrite : Prop :=
  ∀ (ws : List (Byte × Byte)) (a : Byte),
    (ws.foldl (fun m w => Memory.write m w.1 w.2) State.reset.mem).read a =
      match ws.reverse.find? (fun w => w.1 == a) with
      | some w => w.2
      | none => 0x00

/-- Memories in canonical form are equal when all 256 cells read alike, so equal memories are equal data
(10_state.md R27; the form is the model's own). -/
def Obligations.MemoryIsItsCells : Prop :=
  ∀ m n : Memory, m.wf = true → n.wf = true → (∀ a : Byte, m.read a = n.read a) → m = n

/-- A byte stored by PUSH where the next instruction stands is the opcode the very next fetch reads
(20_memory.md R70; 70_reset_and_hazards.md R245; by the spec's decision D17). -/
def Obligations.StoredByteIsFetchedNext : Prop :=
  ∀ (a : Byte) (ra : RegIdx) (s : State), a.toNat = ra.val → ra ≠ SP → s.mem.wf = true → s.pc.toNat ≤ 253 →
    (s.reg SP).toNat = s.pc.toNat + 3 →
    ∃ t, exec (.push a) s = .next t ∧ t.pc.toNat = s.pc.toNat + 2 ∧ t.fetchOpcode = s.reg ra

/-! ## Reset and the host -/

/-- Reset gives every piece of state its reset value, from any state (70_reset_and_hazards.md R240; 10_state.md R37; the
run state, fault record and output by the spec's decision D14), and keeps the parameters (log entry 2). -/
def Obligations.ResetValues : Prop :=
  ∀ s : State,
    (∀ r : RegIdx, (hostReset s).reg r = if r.val = 7 then 0xF4 else 0x00) ∧ (hostReset s).pc = 0x00 ∧
    (hostReset s).flags = ⟨false, false, false⟩ ∧ (∀ a : Byte, (hostReset s).mem.read a = 0x00) ∧
    (hostReset s).runstate = .ready ∧ (hostReset s).fault = ⟨.none, 0, 0, 0⟩ ∧ (hostReset s).out = [] ∧
    (hostReset s).params = s.params

/-- Load: in Ready, at most 256 bytes are placed from address 0 and nothing else changes; any other load changes nothing
(60_exceptions.md R232, by the spec's decision D15). -/
def Obligations.LoadPlacesProgram : Prop :=
  ∀ (p : List Byte) (s : State), s.mem.wf = true →
    (s.runstate = .ready ∧ p.length ≤ 256 →
      (∀ a : Byte, (hostLoad p s).mem.read a = (p[a.toNat]?).getD (s.mem.read a)) ∧
      hostLoad p s = { s with mem := (hostLoad p s).mem }) ∧
    (s.runstate ≠ .ready ∨ 256 < p.length → hostLoad p s = s)

/-- Start: in Ready the core becomes Running and nothing else changes; elsewhere nothing changes
(60_exceptions.md R233, by the spec's decision D24). -/
def Obligations.StartRunsReadyCore : Prop :=
  ∀ s : State,
    (s.runstate = .ready → hostStart s = { s with runstate := .running }) ∧
    (s.runstate ≠ .ready → hostStart s = s)

/-- After reset, load and start the core is Running and its first fetch is at address 0x00 (70_reset_and_hazards.md R241),
from the program's own bytes and, above them, the reset value 0x00 (60_exceptions.md R232; 10_state.md R37). That the fetch
offers the decoder three bytes is the model's own (log entry 9). -/
def Obligations.FirstInstructionIsAtZero : Prop :=
  ∀ (s : State) (p : List Byte), p.length ≤ 256 →
    (hostStart (hostLoad p (hostReset s))).runstate = .running ∧
    (hostStart (hostLoad p (hostReset s))).pc = 0x00 ∧
    (hostStart (hostLoad p (hostReset s))).fetchBytes = (p ++ [0, 0, 0]).take 3

/-- A start before any load faults at once with IllegalInstruction at address 0 (70_reset_and_hazards.md R243). -/
def Obligations.StartWithoutProgramFaults : Prop :=
  ∀ s : State, ∃ t, step (hostStart (hostReset s)) = .next t ∧
    Raised .illegalInstruction 0x00 0 (hostStart (hostReset s)) t ∧ t.pc = 0x00
end

