-- ==== Sys2Proof/Laws/Decode.lean ====
section
/-! SUPPORT. The opcode map read both ways, and the shapes of the decoder's answers. -/

namespace Sys2Proof

/-- No two instructions share an opcode byte (30_encoding.md R86, R87). -/
theorem opcode_injective {m n : Mnemonic} (h : opcode m = opcode n) : m = n := by
  revert h
  cases m <;> cases n <;> decide

/-- What the opcode map finds is a legal instruction with that opcode byte. -/
theorem decodeOpcode_some {ext : Bool} {op : Byte} {m : Mnemonic} (h : decodeOpcode ext op = some m) :
    opcode m = op ∧ m ∈ legalMnemonics ext := by
  refine ⟨?_, List.mem_of_find?_eq_some h⟩
  simpa using List.find?_some h

/-- The opcode byte of a legal instruction is found. -/
theorem decodeOpcode_opcode {ext : Bool} {m : Mnemonic} (h : m ∈ legalMnemonics ext) :
    decodeOpcode ext (opcode m) = some m := by
  revert h
  cases ext <;> cases m <;> decide

/-- A byte is illegal when no legal instruction has it. -/
theorem decodeOpcode_eq_none {ext : Bool} {op : Byte} :
    decodeOpcode ext op = none ↔ ∀ m ∈ legalMnemonics ext, opcode m ≠ op := by
  simp [decodeOpcode, List.find?_eq_none]

/-- A base instruction is legal under both values of `ALU_EXT_DECODE`. -/
theorem baseMnemonics_legal {ext : Bool} {m : Mnemonic} (h : m ∈ baseMnemonics) : m ∈ legalMnemonics ext := by
  cases ext
  · exact h
  · exact List.mem_append_left _ h

@[simp] theorem mnemonic_assemble (m : Mnemonic) (a b : Byte) : (m.assemble a b).mnemonic = m := by
  cases m <;> rfl

/-- The width the opcode byte encodes is that of the format (30_encoding.md R80, R95). -/
theorem widthOf_opcode (m : Mnemonic) :
    widthOf (opcode m) = match m.format with
      | .N => 1
      | .R => 2
      | .RR => 3
      | .RI => 3 := by
  cases m <;> rfl

/-- A legal opcode byte followed by enough operand bytes decodes to the instruction they spell. -/
theorem decode_of_legal {ext : Bool} {m : Mnemonic} {rest rest' : List Byte} {a b : Byte}
    (h : m ∈ legalMnemonics ext) (ht : takeOperands (widthOf (opcode m)) rest = .ok (a, b, rest')) :
    decode ext (opcode m :: rest) = .ok (m.assemble a b, rest') := by
  simp only [decode, decodeOpcode_opcode h, ht]

/-- What the operand fetch can answer: the operands, or the number of the first byte that is not there. -/
theorem takeOperands_cases (w : Nat) (bytes : List Byte) :
    (∃ a b rest, takeOperands w bytes = .ok (a, b, rest)) ∨
      (takeOperands w bytes = .error (.missing (bytes.length + 1)) ∧ bytes.length + 1 < w) := by
  unfold takeOperands
  split <;> simp

/-- The decoder's three answers for a non-empty list. -/
theorem decode_cons_cases (ext : Bool) (op : Byte) (rest : List Byte) :
    (decodeOpcode ext op = none ∧ decode ext (op :: rest) = .error (.illegal op)) ∨
    (∃ m, decodeOpcode ext op = some m ∧
      ((∃ a b rest', takeOperands (widthOf op) rest = .ok (a, b, rest') ∧
          decode ext (op :: rest) = .ok (m.assemble a b, rest')) ∨
        (decode ext (op :: rest) = .error (.missing (rest.length + 1)) ∧ rest.length + 1 < widthOf op))) := by
  cases hm : decodeOpcode ext op with
  | none => exact .inl ⟨rfl, by simp only [decode, hm]⟩
  | some m =>
    refine .inr ⟨m, rfl, ?_⟩
    obtain ⟨a, b, rest', h⟩ | ⟨h, hw⟩ := takeOperands_cases (widthOf op) rest
    · exact .inl ⟨a, b, rest', h, by simp only [decode, hm, h]⟩
    · exact .inr ⟨by simp only [decode, hm, h], hw⟩

end Sys2Proof
end

