-- ==== Sys2Proof/Laws/State.lean ====
section
/-! SUPPORT. One lemma per field per update of State, and the register file's read-after-write. -/

namespace Sys2Proof.Machine

@[simp] theorem State.reg_writeReg_same (s : State) (i : RegIdx) (v : Byte) : (s.writeReg i v).reg i = v := by
  simp [State.writeReg, State.reg]

theorem State.reg_writeReg (s : State) (i j : RegIdx) (v : Byte) :
    (s.writeReg i v).reg j = if i = j then v else s.reg j := by
  simp [State.writeReg, State.reg, Vector.getElem_set, Fin.ext_iff]

@[simp] theorem State.reg_writeReg_of_ne (s : State) {i j : RegIdx} (v : Byte) (h : i ≠ j) :
    (s.writeReg i v).reg j = s.reg j := by
  simp [State.reg_writeReg, h]

/-- Two register files that read alike are equal. -/
theorem State.regs_ext {s t : State} (h : ∀ r : RegIdx, t.reg r = s.reg r) : t.regs = s.regs := by
  apply Vector.ext
  intro i hi
  exact h ⟨i, hi⟩

/-- Equal register files read alike. -/
theorem State.reg_congr {s t : State} (h : t.regs = s.regs) (r : RegIdx) : t.reg r = s.reg r := by
  simp [State.reg, h]

/-- A state with the registers of another reads them alike. -/
@[simp] theorem State.reg_mk (regs : Vector Byte 8) (pc : Byte) (flags : Flags) (mem : Memory) (rs : RunState)
    (fault : FaultRecord) (out : List Byte) (params : Params) (r : RegIdx) :
    (State.mk regs pc flags mem rs fault out params).reg r = regs[r] := rfl

@[simp] theorem State.writeReg_regs (s : State) (i : RegIdx) (v : Byte) : (s.writeReg i v).regs = s.regs.set i v := rfl
@[simp] theorem State.writeReg_pc (s : State) (i : RegIdx) (v : Byte) : (s.writeReg i v).pc = s.pc := rfl
@[simp] theorem State.writeReg_flags (s : State) (i : RegIdx) (v : Byte) : (s.writeReg i v).flags = s.flags := rfl
@[simp] theorem State.writeReg_mem (s : State) (i : RegIdx) (v : Byte) : (s.writeReg i v).mem = s.mem := rfl
@[simp] theorem State.writeReg_runstate (s : State) (i : RegIdx) (v : Byte) : (s.writeReg i v).runstate = s.runstate := rfl
@[simp] theorem State.writeReg_fault (s : State) (i : RegIdx) (v : Byte) : (s.writeReg i v).fault = s.fault := rfl
@[simp] theorem State.writeReg_out (s : State) (i : RegIdx) (v : Byte) : (s.writeReg i v).out = s.out := rfl
@[simp] theorem State.writeReg_params (s : State) (i : RegIdx) (v : Byte) : (s.writeReg i v).params = s.params := rfl

@[simp] theorem raise_regs (c : FaultCode) (op : Byte) (n : Nat) (s : State) : (raise c op n s).regs = s.regs := rfl
@[simp] theorem raise_pc (c : FaultCode) (op : Byte) (n : Nat) (s : State) : (raise c op n s).pc = s.pc := rfl
@[simp] theorem raise_flags (c : FaultCode) (op : Byte) (n : Nat) (s : State) : (raise c op n s).flags = s.flags := rfl
@[simp] theorem raise_mem (c : FaultCode) (op : Byte) (n : Nat) (s : State) : (raise c op n s).mem = s.mem := rfl
@[simp] theorem raise_runstate (c : FaultCode) (op : Byte) (n : Nat) (s : State) : (raise c op n s).runstate = .faulted := rfl
@[simp] theorem raise_fault (c : FaultCode) (op : Byte) (n : Nat) (s : State) : (raise c op n s).fault = { code := c, pc := s.pc, opcode := op, info := toInfo n } := rfl
@[simp] theorem raise_out (c : FaultCode) (op : Byte) (n : Nat) (s : State) : (raise c op n s).out = s.out := rfl
@[simp] theorem raise_params (c : FaultCode) (op : Byte) (n : Nat) (s : State) : (raise c op n s).params = s.params := rfl
@[simp] theorem raise_reg (c : FaultCode) (op : Byte) (n : Nat) (s : State) (r : RegIdx) : (raise c op n s).reg r = s.reg r := rfl

@[simp] theorem jumpTo_regs (a : Byte) (s : State) : (jumpTo a s).regs = s.regs := rfl
@[simp] theorem jumpTo_pc (a : Byte) (s : State) : (jumpTo a s).pc = a := rfl
@[simp] theorem jumpTo_flags (a : Byte) (s : State) : (jumpTo a s).flags = s.flags := rfl
@[simp] theorem jumpTo_mem (a : Byte) (s : State) : (jumpTo a s).mem = s.mem := rfl
@[simp] theorem jumpTo_runstate (a : Byte) (s : State) : (jumpTo a s).runstate = s.runstate := rfl
@[simp] theorem jumpTo_fault (a : Byte) (s : State) : (jumpTo a s).fault = s.fault := rfl
@[simp] theorem jumpTo_out (a : Byte) (s : State) : (jumpTo a s).out = s.out := rfl
@[simp] theorem jumpTo_params (a : Byte) (s : State) : (jumpTo a s).params = s.params := rfl
@[simp] theorem jumpTo_reg (a : Byte) (s : State) (r : RegIdx) : (jumpTo a s).reg r = s.reg r := rfl

@[simp] theorem emit_regs (v : Byte) (s : State) : (emit v s).regs = s.regs := rfl
@[simp] theorem emit_pc (v : Byte) (s : State) : (emit v s).pc = s.pc := rfl
@[simp] theorem emit_flags (v : Byte) (s : State) : (emit v s).flags = s.flags := rfl
@[simp] theorem emit_mem (v : Byte) (s : State) : (emit v s).mem = s.mem := rfl
@[simp] theorem emit_runstate (v : Byte) (s : State) : (emit v s).runstate = s.runstate := rfl
@[simp] theorem emit_fault (v : Byte) (s : State) : (emit v s).fault = s.fault := rfl
@[simp] theorem emit_out (v : Byte) (s : State) : (emit v s).out = s.out ++ [v] := rfl
@[simp] theorem emit_params (v : Byte) (s : State) : (emit v s).params = s.params := rfl
@[simp] theorem emit_reg (v : Byte) (s : State) (r : RegIdx) : (emit v s).reg r = s.reg r := rfl

@[simp] theorem halt_regs (s : State) : (halt s).regs = s.regs := rfl
@[simp] theorem halt_pc (s : State) : (halt s).pc = s.pc := rfl
@[simp] theorem halt_flags (s : State) : (halt s).flags = s.flags := rfl
@[simp] theorem halt_mem (s : State) : (halt s).mem = s.mem := rfl
@[simp] theorem halt_runstate (s : State) : (halt s).runstate = .halted := rfl
@[simp] theorem halt_fault (s : State) : (halt s).fault = s.fault := rfl
@[simp] theorem halt_out (s : State) : (halt s).out = s.out := rfl
@[simp] theorem halt_params (s : State) : (halt s).params = s.params := rfl
@[simp] theorem halt_reg (s : State) (r : RegIdx) : (halt s).reg r = s.reg r := rfl

@[simp] theorem State.writeFlags_regs (s : State) (f : Flags) : (s.writeFlags f).regs = s.regs := rfl
@[simp] theorem State.writeFlags_pc (s : State) (f : Flags) : (s.writeFlags f).pc = s.pc := rfl
@[simp] theorem State.writeFlags_flags (s : State) (f : Flags) : (s.writeFlags f).flags = f := rfl
@[simp] theorem State.writeFlags_mem (s : State) (f : Flags) : (s.writeFlags f).mem = s.mem := rfl
@[simp] theorem State.writeFlags_runstate (s : State) (f : Flags) : (s.writeFlags f).runstate = s.runstate := rfl
@[simp] theorem State.writeFlags_fault (s : State) (f : Flags) : (s.writeFlags f).fault = s.fault := rfl
@[simp] theorem State.writeFlags_out (s : State) (f : Flags) : (s.writeFlags f).out = s.out := rfl
@[simp] theorem State.writeFlags_params (s : State) (f : Flags) : (s.writeFlags f).params = s.params := rfl
@[simp] theorem State.writeFlags_reg (s : State) (f : Flags) (r : RegIdx) : (s.writeFlags f).reg r = s.reg r := rfl

@[simp] theorem decSP_regs (s : State) : (decSP s).regs = s.regs.set SP (u8 ((s.reg SP).toNat + 256 - 1)) := rfl
@[simp] theorem decSP_pc (s : State) : (decSP s).pc = s.pc := rfl
@[simp] theorem decSP_flags (s : State) : (decSP s).flags = s.flags := rfl
@[simp] theorem decSP_mem (s : State) : (decSP s).mem = s.mem := rfl
@[simp] theorem decSP_runstate (s : State) : (decSP s).runstate = s.runstate := rfl
@[simp] theorem decSP_fault (s : State) : (decSP s).fault = s.fault := rfl
@[simp] theorem decSP_out (s : State) : (decSP s).out = s.out := rfl
@[simp] theorem decSP_params (s : State) : (decSP s).params = s.params := rfl

@[simp] theorem storeAtSP_regs (v : Byte) (s : State) : (storeAtSP v s).regs = s.regs := rfl
@[simp] theorem storeAtSP_pc (v : Byte) (s : State) : (storeAtSP v s).pc = s.pc := rfl
@[simp] theorem storeAtSP_flags (v : Byte) (s : State) : (storeAtSP v s).flags = s.flags := rfl
@[simp] theorem storeAtSP_mem (v : Byte) (s : State) : (storeAtSP v s).mem = s.mem.write (s.reg SP) v := rfl
@[simp] theorem storeAtSP_runstate (v : Byte) (s : State) : (storeAtSP v s).runstate = s.runstate := rfl
@[simp] theorem storeAtSP_fault (v : Byte) (s : State) : (storeAtSP v s).fault = s.fault := rfl
@[simp] theorem storeAtSP_out (v : Byte) (s : State) : (storeAtSP v s).out = s.out := rfl
@[simp] theorem storeAtSP_params (v : Byte) (s : State) : (storeAtSP v s).params = s.params := rfl
@[simp] theorem storeAtSP_reg (v : Byte) (s : State) (r : RegIdx) : (storeAtSP v s).reg r = s.reg r := rfl

@[simp] theorem decSP_reg_SP (s : State) : (decSP s).reg SP = u8 ((s.reg SP).toNat + 256 - 1) := by
  simp [decSP]

theorem decSP_reg_of_ne (s : State) {r : RegIdx} (h : r ≠ SP) : (decSP s).reg r = s.reg r := by
  simp [decSP, Ne.symm h]

end Sys2Proof.Machine
end

