-- ==== Sys2Proof/Laws/Memory.lean ====
section
/-! SUPPORT. The memory laws: a read after a write, the canonical form kept by every operation, and that memories in
canonical form that read alike are equal. -/

namespace Sys2Proof.Machine

theorem Memory.wfFrom_cons {lo k : Nat} {v : Byte} {m : Memory} :
    Memory.wfFrom lo ((k, v) :: m) = true ↔
      lo ≤ k ∧ k < 256 ∧ v ≠ Memory.unlisted ∧ Memory.wfFrom (k + 1) m = true := by
  simp [Memory.wfFrom, and_assoc]

theorem Memory.wfFrom_mono {m : Memory} {lo lo' : Nat} (hle : lo' ≤ lo) (h : Memory.wfFrom lo m = true) :
    Memory.wfFrom lo' m = true := by
  cases m with
  | nil => rfl
  | cons c m =>
    obtain ⟨k, v⟩ := c
    rw [Memory.wfFrom_cons] at h ⊢
    exact ⟨le_trans hle h.1, h.2⟩

/-- Below the first listed address every cell is unlisted. -/
theorem Memory.lookup_of_lt {m : Memory} {lo a : Nat} (h : Memory.wfFrom lo m = true) (ha : a < lo) :
    Memory.lookup a m = Memory.unlisted := by
  induction m generalizing lo with
  | nil => rfl
  | cons c m ih =>
    obtain ⟨k, v⟩ := c
    rw [Memory.wfFrom_cons] at h
    have hne : k ≠ a := by omega
    simp only [Memory.lookup, if_neg hne]
    exact ih h.2.2.2 (by omega)

theorem Memory.wfFrom_insert {m : Memory} {lo a : Nat} {v : Byte} (hm : Memory.wfFrom lo m = true) (hlo : lo ≤ a)
    (ha : a < 256) : Memory.wfFrom lo (Memory.insert a v m) = true := by
  induction m generalizing lo with
  | nil =>
    simp only [Memory.insert]
    split
    · rfl
    · next hv => exact Memory.wfFrom_cons.2 ⟨hlo, ha, hv, rfl⟩
  | cons c m ih =>
    obtain ⟨k, w⟩ := c
    have h := Memory.wfFrom_cons.1 hm
    simp only [Memory.insert]
    split
    · next hak =>
      split
      · exact hm
      · next hv => exact Memory.wfFrom_cons.2 ⟨hlo, ha, hv, Memory.wfFrom_cons.2 ⟨hak, h.2⟩⟩
    · next hak =>
      split
      · next hk =>
        split
        · exact Memory.wfFrom_mono (by omega) h.2.2.2
        · next hv => exact Memory.wfFrom_cons.2 ⟨h.1, h.2.1, hv, h.2.2.2⟩
      · next hk => exact Memory.wfFrom_cons.2 ⟨h.1, h.2.1, h.2.2.1, ih h.2.2.2 (by omega)⟩

theorem Memory.lookup_insert {m : Memory} {lo a b : Nat} {v : Byte} (hm : Memory.wfFrom lo m = true) :
    Memory.lookup b (Memory.insert a v m) = if a = b then v else Memory.lookup b m := by
  induction m generalizing lo with
  | nil =>
    simp only [Memory.insert]
    split
    · next hv => simp [Memory.lookup, hv]
    · rfl
  | cons c m ih =>
    obtain ⟨k, w⟩ := c
    have h := Memory.wfFrom_cons.1 hm
    simp only [Memory.insert]
    split
    · next hak =>
      split
      · next hv =>
        split
        · next hab =>
          subst hab
          have hka : k ≠ a := by omega
          simp only [Memory.lookup, if_neg hka, hv]
          exact Memory.lookup_of_lt h.2.2.2 (by omega)
        · rfl
      · rfl
    · next hak =>
      split
      · next hk =>
        subst hk
        split
        · next hv =>
          split
          · next hab =>
            subst hab
            rw [hv]
            exact Memory.lookup_of_lt h.2.2.2 (by omega)
          · next hab => simp [Memory.lookup, hab]
        · simp only [Memory.lookup]
          split <;> rfl
      · next hk =>
        simp only [Memory.lookup, ih h.2.2.2]
        by_cases hkb : k = b
        · simp [hkb, show a ≠ b by omega]
        · simp [hkb]

/-- `MemWrite` keeps the canonical form. -/
@[simp] theorem Memory.wf_write {m : Memory} (hm : m.wf = true) (a v : Byte) : (m.write a v).wf = true :=
  Memory.wfFrom_insert hm (Nat.zero_le _) a.isLt

/-- `MemRead` after `MemWrite` (20_memory.md R62). -/
theorem Memory.read_write {m : Memory} (hm : m.wf = true) (a b v : Byte) :
    (m.write a v).read b = if a = b then v else m.read b := by
  simp only [Memory.read, Memory.write, Memory.lookup_insert hm, BitVec.toNat_inj]

/-- Outside the written address a write is not seen, whatever the memory's form. -/
theorem Memory.lookup_insert_of_ne (m : Memory) {a b : Nat} (v : Byte) (h : a ≠ b) :
    Memory.lookup b (Memory.insert a v m) = Memory.lookup b m := by
  induction m with
  | nil =>
    simp only [Memory.insert]
    split
    · rfl
    · simp [Memory.lookup, h]
  | cons c m ih =>
    obtain ⟨k, w⟩ := c
    simp only [Memory.insert]
    split
    · split
      · rfl
      · simp [Memory.lookup, h]
    · split
      · next hk =>
        subst hk
        split
        · simp [Memory.lookup, h]
        · simp [Memory.lookup, h]
      · simp only [Memory.lookup, ih]

theorem Memory.read_write_of_ne (m : Memory) {a b : Byte} (v : Byte) (h : a ≠ b) :
    (m.write a v).read b = m.read b :=
  Memory.lookup_insert_of_ne m v (fun e => h (BitVec.eq_of_toNat_eq e))

/-- A write of several bytes keeps the canonical form. -/
theorem Memory.wf_writeBytes {m : Memory} (hm : m.wf = true) (a : Nat) (vs : List Byte) :
    (m.writeBytes a vs).wf = true := by
  induction vs generalizing m a with
  | nil => exact hm
  | cons v vs ih =>
    simp only [Memory.writeBytes]
    split
    · exact ih (Memory.wf_write hm _ _) _
    · exact ih hm _

theorem u8_toNat (n : Nat) : (u8 n).toNat = n % 256 := by simp [u8]

@[simp] theorem u8_toNat_self (a : Byte) : u8 a.toNat = a := by simp [u8]

/-- What memory reads after a write of several bytes. -/
theorem Memory.read_writeBytes {m : Memory} (hm : m.wf = true) (a : Nat) (vs : List Byte) (b : Byte) :
    (m.writeBytes a vs).read b =
      if h : a ≤ b.toNat ∧ b.toNat - a < vs.length then vs[b.toNat - a]'h.2 else m.read b := by
  induction vs generalizing m a with
  | nil => simp [Memory.writeBytes]
  | cons v vs ih =>
    have hb := b.isLt
    simp only [Memory.writeBytes]
    split
    · next ha =>
      rw [ih (Memory.wf_write hm _ _)]
      by_cases h1 : a + 1 ≤ b.toNat
      · obtain ⟨d, hd⟩ : ∃ d, b.toNat = a + 1 + d := ⟨b.toNat - (a + 1), by omega⟩
        have hne : u8 a ≠ b := by
          intro e
          have := congrArg BitVec.toNat e
          rw [u8_toNat] at this
          omega
        rw [Memory.read_write_of_ne m v hne]
        simp [hd, show a + 1 + d - a = d + 1 by omega, show a ≤ a + 1 + d by omega]
      · rw [dif_neg (fun h => h1 h.1), Memory.read_write hm]
        by_cases h2 : a = b.toNat
        · subst h2
          simp
        · have hne : u8 a ≠ b := by
            intro e
            have := congrArg BitVec.toNat e
            rw [u8_toNat] at this
            omega
          rw [if_neg hne, dif_neg (fun h => by omega)]
    · next ha =>
      rw [ih hm, dif_neg (fun h => by omega), dif_neg (fun h => by omega)]

/-- Memories in canonical form that read alike at every number are equal. -/
theorem Memory.eq_of_lookup {m n : Memory} {lo : Nat} (hm : Memory.wfFrom lo m = true)
    (hn : Memory.wfFrom lo n = true) (h : ∀ a, Memory.lookup a m = Memory.lookup a n) : m = n := by
  induction m generalizing n lo with
  | nil =>
    cases n with
    | nil => rfl
    | cons c n =>
      obtain ⟨k, v⟩ := c
      have hc := (Memory.wfFrom_cons.1 hn).2.2.1
      have := h k
      simp only [Memory.lookup, if_true] at this
      exact absurd this.symm hc
  | cons c m ih =>
    obtain ⟨k, v⟩ := c
    have hc := Memory.wfFrom_cons.1 hm
    cases n with
    | nil =>
      have := h k
      simp only [Memory.lookup, if_true] at this
      exact absurd this hc.2.2.1
    | cons d n =>
      obtain ⟨l, w⟩ := d
      have hd := Memory.wfFrom_cons.1 hn
      have hkl : k = l := by
        rcases Nat.lt_trichotomy k l with hlt | heq | hgt
        · have := h k
          simp only [Memory.lookup, if_true, if_neg (show l ≠ k by omega)] at this
          rw [Memory.lookup_of_lt hd.2.2.2 (by omega)] at this
          exact absurd this hc.2.2.1
        · exact heq
        · have := h l
          simp only [Memory.lookup, if_true, if_neg (show k ≠ l by omega)] at this
          rw [Memory.lookup_of_lt hc.2.2.2 (by omega)] at this
          exact absurd this.symm hd.2.2.1
      subst hkl
      have hvw : v = w := by
        have := h k
        simpa only [Memory.lookup, if_true] using this
      subst hvw
      refine congrArg ((k, v) :: ·) (ih hc.2.2.2 hd.2.2.2 fun a => ?_)
      by_cases ha : k = a
      · subst ha
        rw [Memory.lookup_of_lt hc.2.2.2 (by omega), Memory.lookup_of_lt hd.2.2.2 (by omega)]
      · have := h a
        simpa only [Memory.lookup, if_neg ha] using this

/-- No listed address lies past 255. -/
theorem Memory.lookup_of_ge {m : Memory} {lo a : Nat} (hm : Memory.wfFrom lo m = true) (ha : 256 ≤ a) :
    Memory.lookup a m = Memory.unlisted := by
  induction m generalizing lo with
  | nil => rfl
  | cons c m ih =>
    obtain ⟨k, v⟩ := c
    have hc := Memory.wfFrom_cons.1 hm
    simp only [Memory.lookup, if_neg (show k ≠ a by omega)]
    exact ih hc.2.2.2

end Sys2Proof.Machine
end

