-- ==== Sys2Proof/Laws/Ops.lean ====
section
/-! SUPPORT. One lemma per shared operation, saying everything it can do: the operand check, the advance, the fetch. -/

namespace Sys2Proof.Machine

/-- A byte below 8 names the register with that number. -/
theorem regIndex_of_lt {a : Byte} (h : a.toNat < 8) : regIndex a = some ⟨a.toNat, h⟩ := by
  simp [regIndex, h]

/-- A byte with a register's number names that register. -/
theorem regIndex_of_eq {a : Byte} {ra : RegIdx} (h : a.toNat = ra.val) : regIndex a = some ra := by
  have hlt : a.toNat < 8 := h ▸ ra.isLt
  rw [regIndex_of_lt hlt]
  exact congrArg some (Fin.ext h)

/-- A byte from 8 up names none (30_encoding.md R84). -/
theorem regIndex_of_ge {a : Byte} (h : 8 ≤ a.toNat) : regIndex a = none := by
  simp [regIndex, Nat.not_lt.2 h]

/-- The byte that a register's number is. -/
theorem regIndex_ofNat (r : RegIdx) : regIndex (BitVec.ofNat 8 r.val) = some r := by
  revert r
  decide

theorem withReg_of_some {op a : Byte} {s : State} {k : RegIdx → Result} {ra : RegIdx} (h : regIndex a = some ra) :
    withReg op a s k = k ra := by
  simp only [withReg, h]

theorem withReg_of_ge {op a : Byte} {s : State} {k : RegIdx → Result} (h : 8 ≤ a.toNat) :
    withReg op a s k = .next (raise .invalidRegister op a.toNat s) := by
  simp only [withReg, regIndex_of_ge h]

/-- The operand check of one register (40_execution_cycle.md R106). -/
theorem withReg_cases (op a : Byte) (s : State) (k : RegIdx → Result) :
    (∃ ra : RegIdx, a.toNat = ra.val ∧ regIndex a = some ra ∧ withReg op a s k = k ra) ∨
      (8 ≤ a.toNat ∧ withReg op a s k = .next (raise .invalidRegister op a.toNat s)) := by
  by_cases h : a.toNat < 8
  · exact .inl ⟨⟨a.toNat, h⟩, rfl, regIndex_of_lt h, withReg_of_some (regIndex_of_lt h)⟩
  · exact .inr ⟨Nat.not_lt.1 h, withReg_of_ge (Nat.not_lt.1 h)⟩

theorem withRegs_of_some {op a b : Byte} {s : State} {k : RegIdx → RegIdx → Result} {ra rb : RegIdx}
    (ha : regIndex a = some ra) (hb : regIndex b = some rb) : withRegs op a b s k = k ra rb := by
  simp only [withRegs, withReg, ha, hb]

/-- The operand check of two registers, `a` before `b` (40_execution_cycle.md R106). -/
theorem withRegs_cases (op a b : Byte) (s : State) (k : RegIdx → RegIdx → Result) :
    (∃ ra rb : RegIdx, regIndex a = some ra ∧ regIndex b = some rb ∧ withRegs op a b s k = k ra rb) ∨
    (8 ≤ a.toNat ∧ withRegs op a b s k = .next (raise .invalidRegister op a.toNat s)) ∨
    (a.toNat < 8 ∧ 8 ≤ b.toNat ∧ withRegs op a b s k = .next (raise .invalidRegister op b.toNat s)) := by
  unfold withRegs
  obtain ⟨ra, ha, hra, h⟩ | ⟨ha, h⟩ := withReg_cases op a s fun ra => withReg op b s fun rb => k ra rb
  · rw [h]
    obtain ⟨rb, -, hrb, h'⟩ | ⟨hb, h'⟩ := withReg_cases op b s fun rb => k ra rb
    · exact .inl ⟨ra, rb, hra, hrb, h'⟩
    · exact .inr (.inr ⟨ha ▸ ra.isLt, hb, h'⟩)
  · exact .inr (.inl ⟨ha, h⟩)

/-- The two ends of the sequential advance (40_execution_cycle.md R110, R111). -/
theorem advance_cases (op : Byte) (s : State) :
    (nextSeq op s ≤ 255 ∧ advance op s = jumpTo (u8 (nextSeq op s)) s) ∨
      (255 < nextSeq op s ∧ advance op s = raise .invalidAddress op (nextSeq op s) s) := by
  unfold advance
  split
  · next h => exact .inl ⟨h, rfl⟩
  · next h => exact .inr ⟨Nat.not_le.1 h, rfl⟩

@[simp] theorem advance_regs (op : Byte) (s : State) : (advance op s).regs = s.regs := by
  unfold advance; split <;> rfl

@[simp] theorem advance_reg (op : Byte) (s : State) (r : RegIdx) : (advance op s).reg r = s.reg r :=
  State.reg_congr (advance_regs op s) r

@[simp] theorem advance_flags (op : Byte) (s : State) : (advance op s).flags = s.flags := by
  unfold advance; split <;> rfl

@[simp] theorem advance_mem (op : Byte) (s : State) : (advance op s).mem = s.mem := by
  unfold advance; split <;> rfl

@[simp] theorem advance_out (op : Byte) (s : State) : (advance op s).out = s.out := by
  unfold advance; split <;> rfl

@[simp] theorem advance_params (op : Byte) (s : State) : (advance op s).params = s.params := by
  unfold advance; split <;> rfl

/-- A raise satisfies the claims' word for it. -/
theorem raised_raise (c : FaultCode) (op : Byte) (s : State) {n : Nat} (h : n < 512) :
    Raised c op n s (raise c op n s) := by
  refine ⟨rfl, rfl, rfl, rfl, ?_, rfl, rfl, rfl, rfl, rfl, rfl⟩
  simp [toInfo, Nat.mod_eq_of_lt h]

/-- The advance satisfies the claims' word for it. -/
theorem endsSequentially_advance (op : Byte) (s t : State) (hpc : t.pc = s.pc) (hrs : t.runstate = s.runstate)
    (hf : t.fault = s.fault) : EndsSequentially op (widthOf op) s (advance op t) := by
  have hn : nextSeq op t = s.pc.toNat + widthOf op := by rw [nextSeq, hpc]
  refine ⟨fun h => ?_, fun h => ?_⟩
  · rw [advance, if_pos (by omega), hn]
    exact ⟨by simp [u8_toNat, Nat.mod_eq_of_lt (show s.pc.toNat + widthOf op < 256 by omega)], hrs, hf⟩
  · rw [advance, if_neg (by omega), hn, h]
    exact ⟨hpc, rfl, rfl, hpc, rfl, by simp [toInfo]⟩

/-! ## Fetch -/

theorem bytesFrom_succ_of_lt {m : Memory} {a n : Nat} (h : a < 256) :
    bytesFrom m a (n + 1) = m.read (u8 a) :: bytesFrom m (a + 1) n := by
  rw [bytesFrom, if_pos h]

/-- The fetch unit stops at the last address. -/
theorem bytesFrom_length (m : Memory) (a n : Nat) (h : a ≤ 256) : (bytesFrom m a n).length = min n (256 - a) := by
  induction n generalizing a with
  | zero => simp [bytesFrom]
  | succ n ih =>
    unfold bytesFrom
    split
    · next ha =>
      rw [List.length_cons, ih _ (by omega)]
      omega
    · next ha =>
      rw [List.length_nil]
      omega

/-- The first byte fetched is the opcode at `pc` (40_execution_cycle.md R101). -/
theorem fetchBytes_eq (s : State) :
    s.fetchBytes = s.fetchOpcode :: bytesFrom s.mem (s.pc.toNat + 1) 2 := by
  rw [State.fetchBytes, maxWidth, bytesFrom_succ_of_lt s.pc.isLt, u8_toNat_self]
  rfl

/-- The three answers of a step of a running core (40_execution_cycle.md R113). -/
theorem cycle_cases (s : State) :
    (decodeOpcode s.params.aluExtDecode s.fetchOpcode = none ∧
      cycle s = .next (raise .illegalInstruction s.fetchOpcode s.fetchOpcode.toNat s)) ∨
    (∃ m, decodeOpcode s.params.aluExtDecode s.fetchOpcode = some m ∧
      ((s.pc.toNat + widthOf s.fetchOpcode ≤ 256 ∧ ∃ a b rest,
          decode s.params.aluExtDecode s.fetchBytes = .ok (m.assemble a b, rest) ∧
          cycle s = exec (m.assemble a b) s) ∨
        (256 < s.pc.toNat + widthOf s.fetchOpcode ∧
          cycle s = .next (raise .invalidAddress s.fetchOpcode 256 s)))) := by
  have hpc := s.pc.isLt
  have hlen := bytesFrom_length s.mem (s.pc.toNat + 1) 2 (by omega)
  rw [cycle, fetchBytes_eq]
  obtain ⟨h, hd⟩ | ⟨m, hm, ⟨a, b, rest, ht, hd⟩ | ⟨hd, hw⟩⟩ :=
    decode_cons_cases s.params.aluExtDecode s.fetchOpcode (bytesFrom s.mem (s.pc.toNat + 1) 2)
  · exact .inl ⟨h, by rw [hd]; rfl⟩
  · refine .inr ⟨m, hm, .inl ⟨?_, a, b, rest, hd, by rw [hd]⟩⟩
    obtain ⟨hop, -⟩ := decodeOpcode_some hm
    rw [← hop] at ht ⊢
    have hw := widthOf_opcode m
    rw [hw] at ht ⊢
    generalize bytesFrom s.mem (s.pc.toNat + 1) 2 = l at ht hlen
    cases m <;> simp only [Mnemonic.format] at ht ⊢ <;>
      (rcases l with _ | ⟨x, _ | ⟨y, l⟩⟩ <;> simp [takeOperands] at ht hlen ⊢ <;> omega)
  · refine .inr ⟨m, hm, .inr ?_⟩
    obtain ⟨hop, -⟩ := decodeOpcode_some hm
    have hw3 : widthOf s.fetchOpcode ≤ 3 := by
      rw [← hop, widthOf_opcode]
      cases m <;> simp [Mnemonic.format]
    have hn : (bytesFrom s.mem (s.pc.toNat + 1) 2).length + 1 = 256 - s.pc.toNat := by omega
    refine ⟨by omega, ?_⟩
    rw [hd, hn]
    simp only [raiseDecodeError, show s.pc.toNat + (256 - s.pc.toNat) = 256 by omega]

/-! ## The step -/

theorem step_of_running {s : State} (h : s.runstate = .running) : step s = cycle s := by
  simp only [step, h]

/-- A core that is not Running executes nothing. -/
theorem step_of_stopped {s : State} (h : s.stopped) : step s = .next s := by
  unfold State.stopped at h
  unfold step
  split
  · next hr => exact absurd hr h
  · rfl
  · rfl
  · rfl

end Sys2Proof.Machine
end

