-- ==== Sys2Proof/Laws/Exec.lean ====
section
/-! SUPPORT. The inversion of `exec`: everything an instruction can do, said once. Claims over all instructions split on
`ExecOutcome` and never unfold `exec`. -/

namespace Sys2Proof.Machine

/-- What `exec i s = .next t` can be. -/
inductive ExecOutcome : Instr → State → State → Prop where
  | invalidRegister {i s b} : i.firstBadOperand = some b →
      ExecOutcome i s (raise .invalidRegister i.opcodeByte b.toNat s)
  | hlt {s} : ExecOutcome .hlt s (halt s)
  | retUnderflow {s} : s.stackWouldUnderflow (s.reg SP) = true →
      ExecOutcome .ret s (raise .stackUnderflow (opcode .RET) 255 s)
  | ret {s} : s.stackWouldUnderflow (s.reg SP) = false → ExecOutcome .ret s (retExecute s)
  | pushOverflow {a s} : a.toNat < 8 → s.stackWouldOverflow = true →
      ExecOutcome (.push a) s (raise .stackOverflow (opcode .PUSH) 0 s)
  | push {a s} {ra : RegIdx} : a.toNat = ra.val → s.stackWouldOverflow = false →
      ExecOutcome (.push a) s (advance (opcode .PUSH) (pushExecute ra s))
  | popUnderflow {a s} {ra : RegIdx} : a.toNat = ra.val → s.stackWouldUnderflow (popIncrementBase ra s) = true →
      ExecOutcome (.pop a) s (raise .stackUnderflow (opcode .POP) 255 s)
  | pop {a s} {ra : RegIdx} : a.toNat = ra.val → s.stackWouldUnderflow (popIncrementBase ra s) = false →
      ExecOutcome (.pop a) s (advance (opcode .POP) (popExecute ra s))
  | prn {a s} {ra : RegIdx} : a.toNat = ra.val →
      ExecOutcome (.prn a) s (advance (opcode .PRN) (emit (s.reg ra) s))
  | callReturnAddress {a s} : a.toNat < 8 → 255 < nextSeq (opcode .CALL) s →
      ExecOutcome (.call a) s (raise .invalidAddress (opcode .CALL) (nextSeq (opcode .CALL) s) s)
  | callOverflow {a s} : a.toNat < 8 → nextSeq (opcode .CALL) s ≤ 255 → s.stackWouldOverflow = true →
      ExecOutcome (.call a) s (raise .stackOverflow (opcode .CALL) 0 s)
  | call {a s} {ra : RegIdx} : a.toNat = ra.val → nextSeq (opcode .CALL) s ≤ 255 → s.stackWouldOverflow = false →
      ExecOutcome (.call a) s (callExecute ra s)
  | jmp {a s} {ra : RegIdx} : a.toNat = ra.val → ExecOutcome (.jmp a) s (jumpTo (s.reg ra) s)
  | jeqTaken {a s} {ra : RegIdx} : a.toNat = ra.val → s.flags.e = true →
      ExecOutcome (.jeq a) s (jumpTo (s.reg ra) s)
  | jeqNotTaken {a s} {ra : RegIdx} : a.toNat = ra.val → s.flags.e = false →
      ExecOutcome (.jeq a) s (advance (opcode .JEQ) s)
  | jneTaken {a s} {ra : RegIdx} : a.toNat = ra.val → s.flags.e = false →
      ExecOutcome (.jne a) s (jumpTo (s.reg ra) s)
  | jneNotTaken {a s} {ra : RegIdx} : a.toNat = ra.val → s.flags.e = true →
      ExecOutcome (.jne a) s (advance (opcode .JNE) s)
  | ldi {a imm s} {ra : RegIdx} : a.toNat = ra.val →
      ExecOutcome (.ldi a imm) s (advance (opcode .LDI) (s.writeReg ra imm))
  | cmp {a b s} {ra rb : RegIdx} : a.toNat = ra.val → b.toNat = rb.val →
      ExecOutcome (.cmp a b) s (advance (opcode .CMP) (s.writeFlags (compareFlags (s.reg ra) (s.reg rb))))
  | add {a b s} {ra rb : RegIdx} : a.toNat = ra.val → b.toNat = rb.val →
      ExecOutcome (.add a b) s
        (advance (opcode .ADD) (s.writeReg ra (u8 ((s.reg ra).toNat + (s.reg rb).toNat))))
  | mul {a b s} {ra rb : RegIdx} : a.toNat = ra.val → b.toNat = rb.val →
      ExecOutcome (.mul a b) s
        (advance (opcode .MUL) (s.writeReg ra (u8 ((s.reg ra).toNat * (s.reg rb).toNat))))
  | sub {a b s} {ra rb : RegIdx} : a.toNat = ra.val → b.toNat = rb.val →
      ExecOutcome (.sub a b) s
        (advance (opcode .SUB) (s.writeReg ra (u8 ((s.reg ra).toNat + 256 - (s.reg rb).toNat))))
  | and {a b s} {ra rb : RegIdx} : a.toNat = ra.val → b.toNat = rb.val →
      ExecOutcome (.and a b) s (advance (opcode .AND) (s.writeReg ra (s.reg ra &&& s.reg rb)))
  | or {a b s} {ra rb : RegIdx} : a.toNat = ra.val → b.toNat = rb.val →
      ExecOutcome (.or a b) s (advance (opcode .OR) (s.writeReg ra (s.reg ra ||| s.reg rb)))
  | xor {a b s} {ra rb : RegIdx} : a.toNat = ra.val → b.toNat = rb.val →
      ExecOutcome (.xor a b) s (advance (opcode .XOR) (s.writeReg ra (s.reg ra ^^^ s.reg rb)))

theorem isRegByte_iff {a : Byte} : isRegByte a = true ↔ a.toNat < 8 := by simp [isRegByte]

/-- A well-formed instruction's operands all name registers. -/
theorem regOperands_lt {i : Instr} (h : i.firstBadOperand = none) : ∀ a ∈ i.regOperands, a.toNat < 8 := by
  intro a ha
  simpa [isRegByte] using List.find?_eq_none.1 h a ha

/-- An instruction is well-formed exactly when it has no bad operand. -/
theorem wellFormed_iff_no_bad {i : Instr} : i.wellFormed = true ↔ i.firstBadOperand = none := by
  simp [Instr.wellFormed, Instr.firstBadOperand, List.find?_eq_none]

theorem withReg_of_bad {op a b : Byte} {s : State} {k : RegIdx → Result}
    (h : [a].find? (fun a => !isRegByte a) = some b) :
    withReg op a s k = .next (raise .invalidRegister op b.toNat s) := by
  obtain ⟨ra, ha, -⟩ | ⟨ha, he⟩ := withReg_cases op a s k
  · have hr : isRegByte a = true := isRegByte_iff.2 (ha ▸ ra.isLt)
    simp [hr] at h
  · have hr : isRegByte a = false := by simpa [isRegByte] using ha
    simp [hr] at h
    exact h ▸ he

theorem withRegs_of_bad {op a b c : Byte} {s : State} {k : RegIdx → RegIdx → Result}
    (h : [a, b].find? (fun a => !isRegByte a) = some c) :
    withRegs op a b s k = .next (raise .invalidRegister op c.toNat s) := by
  unfold withRegs
  by_cases ha : a.toNat < 8
  · have hr : isRegByte a = true := isRegByte_iff.2 ha
    rw [withReg_of_some (regIndex_of_lt ha)]
    refine withReg_of_bad ?_
    simpa [hr] using h
  · have hr : isRegByte a = false := by simpa [isRegByte] using ha
    simp [hr] at h
    rw [withReg_of_ge (Nat.not_lt.1 ha), h]

/-- A bad register operand: every instruction answers with the same fault (40_execution_cycle.md R106). -/
theorem exec_of_bad {i : Instr} {s : State} {b : Byte} (h : i.firstBadOperand = some b) :
    exec i s = .next (raise .invalidRegister i.opcodeByte b.toNat s) := by
  cases i <;> simp only [Instr.firstBadOperand, Instr.regOperands] at h
  case hlt => simp at h
  case ret => simp at h
  case add | mul | cmp | sub | and | or | xor => exact withRegs_of_bad h
  all_goals exact withReg_of_bad h

/-- Every instruction has a next state, and it is one of the outcomes. -/
theorem exec_outcome (i : Instr) (s : State) : ∃ t, exec i s = .next t ∧ ExecOutcome i s t := by
  cases hb : i.firstBadOperand with
  | some b => exact ⟨_, exec_of_bad hb, .invalidRegister hb⟩
  | none =>
    have hw := regOperands_lt hb
    cases i <;>
      simp only [Instr.regOperands, List.mem_cons, List.not_mem_nil, or_false, forall_eq_or_imp, forall_eq] at hw
    case hlt => exact ⟨_, rfl, .hlt⟩
    case ret =>
      show ∃ t, execRet s = _ ∧ _
      rw [execRet]
      split
      · next h => exact ⟨_, rfl, .retUnderflow h⟩
      · next h => exact ⟨_, rfl, .ret (by simpa using h)⟩
    case push a =>
      show ∃ t, execPush a s = _ ∧ _
      rw [execPush, withReg_of_some (regIndex_of_lt hw)]
      split
      · next h => exact ⟨_, rfl, .pushOverflow hw h⟩
      · next h => exact ⟨_, rfl, .push (ra := ⟨_, hw⟩) rfl (by simpa using h)⟩
    case pop a =>
      show ∃ t, execPop a s = _ ∧ _
      rw [execPop, withReg_of_some (regIndex_of_lt hw)]
      split
      · next h => exact ⟨_, rfl, .popUnderflow rfl h⟩
      · next h => exact ⟨_, rfl, .pop (ra := ⟨_, hw⟩) rfl (by simpa using h)⟩
    case prn a => exact ⟨_, withReg_of_some (regIndex_of_lt hw), .prn (ra := ⟨_, hw⟩) rfl⟩
    case call a =>
      show ∃ t, execCall a s = _ ∧ _
      rw [execCall, withReg_of_some (regIndex_of_lt hw)]
      split
      · next h => exact ⟨_, rfl, .callReturnAddress hw h⟩
      · next h =>
        split
        · next h' => exact ⟨_, rfl, .callOverflow hw (by omega) h'⟩
        · next h' => exact ⟨_, rfl, .call (ra := ⟨_, hw⟩) rfl (by omega) (by simpa using h')⟩
    case jmp a => exact ⟨_, withReg_of_some (regIndex_of_lt hw), .jmp (ra := ⟨_, hw⟩) rfl⟩
    case jeq a =>
      show ∃ t, jumpIf _ _ a s = _ ∧ _
      rw [jumpIf, withReg_of_some (regIndex_of_lt hw)]
      split
      · next h => exact ⟨_, rfl, .jeqTaken (ra := ⟨_, hw⟩) rfl h⟩
      · next h => exact ⟨_, rfl, .jeqNotTaken (ra := ⟨_, hw⟩) rfl (by simpa using h)⟩
    case jne a =>
      show ∃ t, jumpIf _ _ a s = _ ∧ _
      rw [jumpIf, withReg_of_some (regIndex_of_lt hw)]
      split
      · next h => exact ⟨_, rfl, .jneTaken (ra := ⟨_, hw⟩) rfl (by simpa using h)⟩
      · next h => exact ⟨_, rfl, .jneNotTaken (ra := ⟨_, hw⟩) rfl (by simpa using h)⟩
    case ldi a imm => exact ⟨_, withReg_of_some (regIndex_of_lt hw), .ldi (ra := ⟨_, hw⟩) rfl⟩
    all_goals
      refine ⟨_, withRegs_of_some (regIndex_of_lt hw.1) (regIndex_of_lt hw.2), ?_⟩
    case cmp => exact .cmp (ra := ⟨_, hw.1⟩) (rb := ⟨_, hw.2⟩) rfl rfl
    case add => exact .add (ra := ⟨_, hw.1⟩) (rb := ⟨_, hw.2⟩) rfl rfl
    case mul => exact .mul (ra := ⟨_, hw.1⟩) (rb := ⟨_, hw.2⟩) rfl rfl
    case sub => exact .sub (ra := ⟨_, hw.1⟩) (rb := ⟨_, hw.2⟩) rfl rfl
    case and => exact .and (ra := ⟨_, hw.1⟩) (rb := ⟨_, hw.2⟩) rfl rfl
    case or => exact .or (ra := ⟨_, hw.1⟩) (rb := ⟨_, hw.2⟩) rfl rfl
    case xor => exact .xor (ra := ⟨_, hw.1⟩) (rb := ⟨_, hw.2⟩) rfl rfl

/-- The inversion lemma of `exec`. -/
theorem exec_cases {i : Instr} {s t : State} (h : exec i s = .next t) : ExecOutcome i s t := by
  obtain ⟨t', h', ho⟩ := exec_outcome i s
  rw [h] at h'
  cases h'
  exact ho

/-- Each outcome happens: `ExecOutcome` says exactly what `exec` does. -/
theorem exec_of_outcome {i : Instr} {s t : State} (h : ExecOutcome i s t) : exec i s = .next t := by
  cases h
  case invalidRegister h => exact exec_of_bad h
  case hlt => rfl
  case retUnderflow h =>
    show execRet s = _
    rw [execRet, if_pos h]
  case ret h =>
    show execRet s = _
    rw [execRet, if_neg (by simp [h])]
  case pushOverflow a h h' =>
    show execPush a s = _
    rw [execPush, withReg_of_some (regIndex_of_lt h), if_pos h']
  case push a ra h h' =>
    show execPush a s = _
    rw [execPush, withReg_of_some (regIndex_of_eq h), if_neg (by simp [h'])]
  case popUnderflow a ra h h' =>
    show execPop a s = _
    rw [execPop, withReg_of_some (regIndex_of_eq h), if_pos h']
  case pop a ra h h' =>
    show execPop a s = _
    rw [execPop, withReg_of_some (regIndex_of_eq h), if_neg (by simp [h'])]
  case prn h => exact withReg_of_some (regIndex_of_eq h)
  case callReturnAddress a h h' =>
    show execCall a s = _
    rw [execCall, withReg_of_some (regIndex_of_lt h), if_pos h']
  case callOverflow a h h' h2 =>
    show execCall a s = _
    rw [execCall, withReg_of_some (regIndex_of_lt h), if_neg (by omega), if_pos h2]
  case call a ra h h' h2 =>
    show execCall a s = _
    rw [execCall, withReg_of_some (regIndex_of_eq h), if_neg (by omega), if_neg (by simp [h2])]
  case jmp h => exact withReg_of_some (regIndex_of_eq h)
  case jeqTaken a ra h h' =>
    show jumpIf _ _ a s = _
    rw [jumpIf, withReg_of_some (regIndex_of_eq h), if_pos h']
  case jeqNotTaken a ra h h' =>
    show jumpIf _ _ a s = _
    rw [jumpIf, withReg_of_some (regIndex_of_eq h), if_neg (by simp [h'])]
  case jneTaken a ra h h' =>
    show jumpIf _ _ a s = _
    rw [jumpIf, withReg_of_some (regIndex_of_eq h), if_pos (by simp [h'])]
  case jneNotTaken a ra h h' =>
    show jumpIf _ _ a s = _
    rw [jumpIf, withReg_of_some (regIndex_of_eq h), if_neg (by simp [h'])]
  case ldi h => exact withReg_of_some (regIndex_of_eq h)
  all_goals
    rename_i h h'
    exact withRegs_of_some (regIndex_of_eq h) (regIndex_of_eq h')

/-- An instruction whose register operand names a register is past its operand check. -/
theorem wellFormed_of_operands {i : Instr} (h : ∀ a ∈ i.regOperands, a.toNat < 8) : i.wellFormed = true :=
  List.all_eq_true.2 fun a ha => isRegByte_iff.2 (h a ha)

/-- POP's stack fault in the claims' words is its check (42_stack.md R141). -/
theorem instrStackFaults_pop {a : Byte} {ra : RegIdx} (s : State) (h : a.toNat = ra.val) :
    instrStackFaults s (.pop a) = s.stackWouldUnderflow (popIncrementBase ra s) := by
  have hra : ra = SP ↔ ra.val = 7 := Fin.ext_iff
  simp only [instrStackFaults, State.stackWouldUnderflow, popIncrementBase, State.loadAtSP, h, hra]

/-- The endings of an instruction (40_execution_cycle.md R108; 60_exceptions.md R221): the sequential advance after its
effects, a precise fault, or neither, where it transferred or halted. -/
theorem exec_ends {i : Instr} {s t : State} (h : exec i s = .next t) :
    (EndsInAdvance i s ∧
      ∃ u, t = advance i.opcodeByte u ∧ u.pc = s.pc ∧ u.runstate = s.runstate) ∨
    (∃ c n, t = raise c i.opcodeByte n s) ∨
    t.runstate = s.runstate ∨ t.runstate = .halted := by
  cases exec_cases h
  case hlt => exact .inr (.inr (.inr rfl))
  case ret | call | jmp | jeqTaken | jneTaken => exact .inr (.inr (.inl rfl))
  case invalidRegister | retUnderflow | pushOverflow | popUnderflow | callReturnAddress | callOverflow =>
    exact .inr (.inl ⟨_, _, rfl⟩)
  case pop ra ha hsf =>
    exact .inl ⟨⟨wellFormed_of_operands (by simp [Instr.regOperands, ha]),
      (instrStackFaults_pop s ha).trans hsf, rfl, nofun⟩, _, rfl, rfl, rfl⟩
  all_goals
    refine .inl ⟨⟨wellFormed_of_operands (by simp [Instr.regOperands, *]), ?_, ?_, nofun⟩, _, rfl, rfl, rfl⟩ <;>
      first | rfl | assumption | simp [instrTransfers, *]

end Sys2Proof.Machine
end

