-- ==== Sys2Proof/Laws/Host.lean ====
section
/-! SUPPORT. What the host's actions and the placing of a fetch word do. -/

namespace Sys2Proof.Machine

/-- Reset memory is canonical. -/
theorem resetWith_mem_wf (p : Params) : (State.resetWith p).mem.wf = true := rfl

/-- Placing a fetch word keeps the canonical form. -/
theorem withFetchWord_mem_wf {s : State} (h : s.mem.wf = true) (nbits w : Nat) :
    (s.withFetchWord nbits w).mem.wf = true :=
  Memory.wf_writeBytes h _ _

/-- After reset, placing a fetch word is the host's load of its bytes and a start, on a machine with the parameters the
word needs (log entry 3). -/
theorem withFetchWord_reset (nbits w : Nat) :
    State.reset.withFetchWord nbits w =
      hostStart (hostLoad (tableBytes nbits w)
        (State.resetWith
          { Params.default with aluExtDecode := isExtOpcode (u8 (w % 2 ^ nbits)) })) := rfl

/-- The actions of the host change memory only by an accepted load (60_exceptions.md R230). -/
theorem hostStart_mem (s : State) : (hostStart s).mem = s.mem := by
  unfold hostStart
  split <;> rfl

/-- An accepted load changes memory alone (60_exceptions.md R232). -/
theorem hostLoad_of_accepted {p : List Byte} {s : State} (h : loadAccepted p s = true) :
    hostLoad p s = { s with mem := s.mem.writeBytes 0 p } := by
  simp [hostLoad, h]

/-- A refused load changes nothing (60_exceptions.md R232). -/
theorem hostLoad_of_refused {p : List Byte} {s : State} (h : loadAccepted p s = false) : hostLoad p s = s := by
  simp [hostLoad, h]

end Sys2Proof.Machine
end

