-- ==== Sys2Proof/Laws/PerInstr.lean ====
section
/-! SUPPORT. Statements made per instruction. -/

namespace Sys2Proof.Laws

/-- The bytes of an instruction are as many as its opcode byte says (30_encoding.md R82). -/
def Width.Statement (i : Instr) : Prop := (encode i).length = i.width

theorem Width.hlt : Width.Statement .hlt := (widthOf_opcode .HLT).symm
theorem Width.ret : Width.Statement .ret := (widthOf_opcode .RET).symm
theorem Width.push (a : Byte) : Width.Statement (.push a) := (widthOf_opcode .PUSH).symm
theorem Width.pop (a : Byte) : Width.Statement (.pop a) := (widthOf_opcode .POP).symm
theorem Width.prn (a : Byte) : Width.Statement (.prn a) := (widthOf_opcode .PRN).symm
theorem Width.call (a : Byte) : Width.Statement (.call a) := (widthOf_opcode .CALL).symm
theorem Width.jmp (a : Byte) : Width.Statement (.jmp a) := (widthOf_opcode .JMP).symm
theorem Width.jeq (a : Byte) : Width.Statement (.jeq a) := (widthOf_opcode .JEQ).symm
theorem Width.jne (a : Byte) : Width.Statement (.jne a) := (widthOf_opcode .JNE).symm
theorem Width.ldi (a imm : Byte) : Width.Statement (.ldi a imm) := (widthOf_opcode .LDI).symm
theorem Width.add (a b : Byte) : Width.Statement (.add a b) := (widthOf_opcode .ADD).symm
theorem Width.mul (a b : Byte) : Width.Statement (.mul a b) := (widthOf_opcode .MUL).symm
theorem Width.cmp (a b : Byte) : Width.Statement (.cmp a b) := (widthOf_opcode .CMP).symm
theorem Width.sub (a b : Byte) : Width.Statement (.sub a b) := (widthOf_opcode .SUB).symm
theorem Width.and (a b : Byte) : Width.Statement (.and a b) := (widthOf_opcode .AND).symm
theorem Width.or (a b : Byte) : Width.Statement (.or a b) := (widthOf_opcode .OR).symm
theorem Width.xor (a b : Byte) : Width.Statement (.xor a b) := (widthOf_opcode .XOR).symm

end Sys2Proof.Laws
end

