-- ==== Sys2Proof/Tests/Slice0.lean ====
section
/-! SUPPORT. The model's own tests. Words are written out from the opcode tables of 30_encoding.md; the steps' expected
results are the vectors of 95_test_vectors.md, named by their ids. Then the witnesses of the statements' hypotheses. -/

namespace Sys2Proof.Tests

open Sys2Proof Sys2Proof.Machine

/-! ## Well-formedness: one ill-formed term for each operand check -/

theorem test_wf_ok : (Instr.ldi 7 255).wellFormed = true := by decide
theorem test_wf_hlt : Instr.hlt.wellFormed = true := by decide
theorem test_ill_push : (Instr.push 8).wellFormed = false := by decide
theorem test_ill_pop : (Instr.pop 255).wellFormed = false := by decide
theorem test_ill_prn : (Instr.prn 8).wellFormed = false := by decide
theorem test_ill_call : (Instr.call 8).wellFormed = false := by decide
theorem test_ill_jmp : (Instr.jmp 8).wellFormed = false := by decide
theorem test_ill_jeq : (Instr.jeq 8).wellFormed = false := by decide
theorem test_ill_jne : (Instr.jne 9).wellFormed = false := by decide
theorem test_ill_ldi : (Instr.ldi 8 0).wellFormed = false := by decide
theorem test_ill_cmp_a : (Instr.cmp 9 10).firstBadOperand = some 9 := by decide
theorem test_ill_cmp_b : (Instr.cmp 1 9).firstBadOperand = some 9 := by decide
theorem test_ill_add : (Instr.add 0 8).wellFormed = false := by decide
theorem test_ill_mul : (Instr.mul 8 0).wellFormed = false := by decide
theorem test_ill_sub : (Instr.sub 0 128).wellFormed = false := by decide
theorem test_ill_and : (Instr.and 8 8).wellFormed = false := by decide
theorem test_ill_or : (Instr.or 0 8).wellFormed = false := by decide
theorem test_ill_xor : (Instr.xor 16 0).wellFormed = false := by decide

/-! ## Decoding: every row's word, bit by bit as the table spells it -/

theorem test_word_hlt : decode false [0b00000001] = .ok (.hlt, []) := by rfl
theorem test_word_ret : decode false [0b00010001] = .ok (.ret, []) := by rfl
theorem test_word_push : decode false [0b01000101, 0b00000011] = .ok (.push 3, []) := by rfl
theorem test_word_pop : decode false [0b01000110, 0b00000010] = .ok (.pop 2, []) := by rfl
theorem test_word_prn : decode false [0b01000111, 0b00000000] = .ok (.prn 0, []) := by rfl
theorem test_word_call : decode false [0b01010000, 0b00000001] = .ok (.call 1, []) := by rfl
theorem test_word_jmp : decode false [0b01010100, 0b00000010] = .ok (.jmp 2, []) := by rfl
theorem test_word_jeq : decode false [0b01010101, 0b00000010] = .ok (.jeq 2, []) := by rfl
theorem test_word_jne : decode false [0b01010110, 0b00000011] = .ok (.jne 3, []) := by rfl
theorem test_word_ldi : decode false [0b10000010, 0b00000000, 0b00001001] = .ok (.ldi 0 9, []) := by rfl
theorem test_word_add : decode false [0b10100000, 0b00000000, 0b00000001] = .ok (.add 0 1, []) := by rfl
theorem test_word_mul : decode false [0b10100010, 0b00000010, 0b00000101] = .ok (.mul 2 5, []) := by rfl
theorem test_word_cmp : decode false [0b10100111, 0b00000011, 0b00000100] = .ok (.cmp 3 4, []) := by rfl
theorem test_word_sub : decode true [0b10100001, 0b00000110, 0b00000111] = .ok (.sub 6 7, []) := by rfl
theorem test_word_and : decode true [0b10101000, 0b00000000, 0b00000001] = .ok (.and 0 1, []) := by rfl
theorem test_word_or : decode true [0b10101010, 0b00000010, 0b00000001] = .ok (.or 2 1, []) := by rfl
theorem test_word_xor : decode true [0b10101011, 0b00000011, 0b00000001] = .ok (.xor 3 1, []) := by rfl
/-- F4: the extension's bytes are illegal when it is off. -/
theorem test_word_sub_off : decode false [0b10100001, 0, 1] = .error (.illegal 0xA1) := by rfl
/-- F3: 0x00 is no NOP. -/
theorem test_word_zero : decode true [0, 0, 0] = .error (.illegal 0) := by rfl
/-- R83: legality before operands. -/
theorem test_word_illegal_alone : decode false [0xFF] = .error (.illegal 0xFF) := by rfl
theorem test_word_cut_a : decode false [0x82] = .error (.missing 1) := by rfl
theorem test_word_cut_b : decode false [0x82, 1] = .error (.missing 2) := by rfl
theorem test_table_word : decodeTableWord 24 0x090082 = some (.ldi 0 9) := by rfl
theorem test_table_word_short : decodeTableWord 8 0xAB = some (.xor 0 0) := by rfl

/-! ## Steps -/

/-- A machine with these parameters, booted with these bytes: reset, load, start (60_exceptions.md R231). -/
def boot (check ext : Bool) (p : List Byte) : State :=
  hostStart (hostLoad p (State.resetWith { stackBoundCheck := check, aluExtDecode := ext }))

/-- A booted default machine with some registers set, at `pc`, with bytes there. -/
def at_ (pc : Byte) (bytes : List Byte) (regs : List (RegIdx × Byte)) : State :=
  regs.foldl (fun s r => s.writeReg r.1 r.2)
    { boot true false [] with pc := pc, mem := Memory.writeBytes [] pc.toNat bytes }

/-- The state after one step. -/
def after (s : State) : State :=
  match step s with
  | .next t => t
  | .fault _ => s
  | .refused _ => s

/-- F1, W8. -/
theorem test_F1 : (after (boot true false [0xFF])).fault = ⟨.illegalInstruction, 0, 0xFF, 0xFF⟩ := by decide
/-- F6: operand `a` before `b`. -/
theorem test_F6 : (after (boot true false [0xA7, 9, 10])).fault = ⟨.invalidRegister, 0, 0xA7, 9⟩ := by decide
/-- F7: an immediate past the end. -/
theorem test_F7 : (after (at_ 254 [0x82, 0x01] [])).fault = ⟨.invalidAddress, 254, 0x82, 256⟩ := by decide
/-- F8: off the end, after the commit. -/
theorem test_F8 : let t := after (at_ 253 [0x82, 0x01, 0x07] [])
    t.fault = ⟨.invalidAddress, 253, 0x82, 256⟩ ∧ t.reg 1 = 7 ∧ t.pc = 253 ∧ t.runstate = .faulted := by decide
/-- F10: HLT at 255 halts. -/
theorem test_F10 : let t := after (at_ 255 [0x01] []); t.runstate = .halted ∧ t.pc = 255 := by decide
/-- H1. -/
theorem test_H1 : after (boot true false [0x01]) = { boot true false [0x01] with runstate := .halted } := by decide
/-- D2: no sign. -/
theorem test_D2 : let t := after (at_ 16 [0x82, 3, 0xFF] []); t.reg 3 = 0xFF ∧ t.pc = 19 := by decide
/-- D3. -/
theorem test_D3 : (after (at_ 0 [0x82, 7, 0x10] [])).reg SP = 0x10 := by decide
/-- D4. -/
theorem test_D4 : (after (at_ 0 [0x47, 5] [(5, 0xFF)])).out = [255] := by decide
/-- D6: the emission stays. -/
theorem test_D6 : let t := after (at_ 254 [0x47, 0] [(0, 3)])
    t.out = [3] ∧ t.fault = ⟨.invalidAddress, 254, 0x47, 256⟩ ∧ t.pc = 254 := by decide
/-- S2: PUSH R7 writes the decremented stack pointer. -/
theorem test_S2 : let t := after (at_ 0 [0x45, 7] []); t.reg SP = 0xF3 ∧ t.mem.read 0xF3 = 0xF3 := by decide
/-- S9. -/
theorem test_S9 : let t := after (at_ 16 [0x45, 0] [(7, 1), (0, 9)]); t.reg SP = 0 ∧ t.mem.read 0 = 9 := by decide
/-- S1, second step. -/
theorem test_S1 : let t := after (at_ 0 [0x46, 2] [(7, 0xF3)]); t.reg 2 = 0 ∧ t.reg SP = 0xF4 := by decide
/-- S10, check on: POP R7 of 255. -/
theorem test_S10 : (after { at_ 0 [] [] with mem := [(0, 0x46), (1, 7), (0xF4, 0xFF)] }).fault =
    ⟨.stackUnderflow, 0, 0x46, 255⟩ := by decide
/-- S6: the check off. -/
theorem test_S6 : (after { boot false false [0x45, 0] with regs := #v[0, 0, 0, 0, 0, 0, 0, 0] }).reg SP = 0xFF := by
  decide
/-- K1. -/
theorem test_K1 : let t := after (at_ 5 [0x50, 1] [(1, 0x20)])
    t.reg SP = 0xF3 ∧ t.mem.read 0xF3 = 7 ∧ t.pc = 0x20 := by decide
/-- K2: CALL R7 jumps to the decremented stack pointer. -/
theorem test_K2 : let t := after (at_ 0 [0x50, 7] []); t.mem.read 0xF3 = 2 ∧ t.pc = 0xF3 := by decide
/-- K3. -/
theorem test_K3 : let t := after { at_ 0 [] [(7, 0xF3)] with mem := [(0, 0x11), (0xF3, 7)] }
    t.reg SP = 0xF4 ∧ t.pc = 7 := by decide
/-- K7. -/
theorem test_K7 : (after (at_ 3 [0x11] [(7, 0xFF)])).fault = ⟨.stackUnderflow, 3, 0x11, 255⟩ := by decide
/-- K10. -/
theorem test_K10 : (after (at_ 0 [0x54, 2] [(2, 0x10)])).pc = 0x10 := by decide
/-- K11. -/
theorem test_K11 : (after { at_ 0 [0x55, 2] [(2, 0x10)] with flags := ⟨true, false, false⟩ }).pc = 0x10 := by decide
/-- K12. -/
theorem test_K12 : (after { at_ 0 [0x55, 2] [(2, 0x10)] with flags := ⟨false, true, false⟩ }).pc = 2 := by decide
/-- K13. -/
theorem test_K13 : (after (at_ 0 [0x56, 3] [(3, 0x0C)])).pc = 0x0C := by decide
/-- K16: the operand of a jump not taken is checked. -/
theorem test_K16 : (after { at_ 9 [0x56, 9] [] with flags := ⟨true, false, false⟩ }).fault =
    ⟨.invalidRegister, 9, 0x56, 9⟩ := by decide
/-- W3. -/
theorem test_W3 : (after (at_ 0 [0xA0, 0, 1] [(0, 250), (1, 10)])).reg 0 = 4 := by decide
/-- A3. -/
theorem test_A3 : (after (at_ 0 [0xA2, 0, 1] [(0, 0xFF), (1, 0xFF)])).reg 0 = 1 := by decide
/-- A6: unsigned. -/
theorem test_A6 : (after (at_ 0 [0xA7, 0, 1] [(0, 0xFF), (1, 1)])).flags = ⟨false, true, false⟩ := by decide
/-- A7. -/
theorem test_A7 : (after (at_ 0 [0xA7, 0, 1] [(0, 5), (1, 7)])).flags = ⟨false, false, true⟩ := by decide
/-- A10. -/
theorem test_A10 : (after { boot true true [0xA1, 0, 1] with regs := #v[3, 10, 0, 0, 0, 0, 0, 0xF4] }).reg 0 = 249 := by
  decide
/-- A12, AND. -/
theorem test_A12_and : (after { boot true true [0xA8, 0, 1] with regs := #v[0xCC, 0xAA, 0, 0, 0, 0, 0, 0xF4] }).reg 0 =
    0x88 := by decide
/-- A12, OR. -/
theorem test_A12_or : (after { boot true true [0xAA, 0, 1] with regs := #v[0xCC, 0xAA, 0, 0, 0, 0, 0, 0xF4] }).reg 0 =
    0xEE := by decide
/-- A12, XOR. -/
theorem test_A12_xor : (after { boot true true [0xAB, 0, 1] with regs := #v[0xCC, 0xAA, 0, 0, 0, 0, 0, 0xF4] }).reg 0 =
    0x66 := by decide
/-- A14. -/
theorem test_A14 : alu 0x3 1 2 = none := by decide
/-- 44_alu_compare.md R170: an operation's tag is the low nibble of its opcode. -/
theorem test_tags : AluTag.add = (opcode .ADD).setWidth 4 ∧ AluTag.sub = (opcode .SUB).setWidth 4 ∧
    AluTag.mul = (opcode .MUL).setWidth 4 ∧ AluTag.and = (opcode .AND).setWidth 4 ∧
    AluTag.or = (opcode .OR).setWidth 4 ∧ AluTag.xor = (opcode .XOR).setWidth 4 := by decide
/-- 40_execution_cycle.md R113: the record of an off-the-end fault names the opcode as fetched, even where the
instruction has just overwritten its own opcode byte (log entry 8). -/
theorem test_overwritten_opcode : let t := after (at_ 254 [0x45, 0] [(7, 255), (0, 0x99)])
    t.mem.read 254 = 0x99 ∧ t.fault = ⟨.invalidAddress, 254, 0x45, 256⟩ := by decide
/-- 10_state.md R31: bit 0 = E, bit 1 = G, bit 2 = L. -/
theorem test_flags_byte : Flags.toByte ⟨true, false, false⟩ = 1 ∧ Flags.toByte ⟨false, true, false⟩ = 2 ∧
    Flags.toByte ⟨false, false, true⟩ = 4 := by decide
/-- 60_exceptions.md R232: 257 bytes are refused. -/
theorem test_load_257 : loadAccepted (List.replicate 257 0) State.reset = false := by
  unfold loadAccepted
  rw [List.length_replicate]
  decide
theorem test_load_256 : loadAccepted (List.replicate 256 0) State.reset = true := by
  unfold loadAccepted
  rw [List.length_replicate]
  decide
/-- 60_exceptions.md R234: a running core cannot be inspected. -/
theorem test_inspect : hostInspect (boot true false []) = none ∧ (hostInspect State.reset).isSome = true := by decide
/-- 60_exceptions.md R211, R234: the report of a stopped run. -/
theorem test_report : (hostStatus (after (boot true false [0xFF]))).2.code.number = 1 := by decide
/-- 40_execution_cycle.md R114: a core in Ready executes nothing. -/
theorem test_ready : after State.reset = State.reset := by decide
/-- 20_memory.md R62 and the canonical form: writing 0 back removes the cell. -/
theorem test_memory_canonical : Memory.write [(3, 1), (9, 2)] 3 0 = [(9, 2)] ∧
    Memory.write [(3, 1), (9, 2)] 5 7 = [(3, 1), (5, 7), (9, 2)] := by decide
/-- A placed word is the next instruction. -/
theorem test_fetch_word : (after (State.reset.withFetchWord 24 0x090082)).reg 0 = 9 := by decide
theorem test_fetch_word_ext : (after (State.reset.withFetchWord 8 0xA1)).pc = 3 := by decide

/-! ## Witnesses: a concrete state and operands that meet each statement's hypotheses together, at the boundary of each
clause -/

theorem witness_DecodeEncodeRoundTrip :
    (Instr.sub 1 200).decodesUnder true = true ∧ (Instr.ldi 9 0).decodesUnder false = true := by decide

theorem witness_DecodeReadsOnlyEncodings : decode false [0x45, 3, 7] = .ok (.push 3, [7]) := by rfl

theorem witness_OpcodeTopBitsGiveWidth : decodeOpcode false 0x11 = some .RET ∧ decodeOpcode false 0x45 = some .PUSH ∧
    decodeOpcode true 0xAB = some .XOR := by decide

theorem witness_StepRunsDecodedInstruction : (at_ 254 [0x45, 3] []).runstate = .running ∧
    decode (at_ 254 [0x45, 3] []).params.aluExtDecode (at_ 254 [0x45, 3] []).fetchBytes = .ok (.push 3, []) :=
  ⟨rfl, rfl⟩

theorem witness_StepRunsInstructionInMemory :
    let s := at_ 253 [0xA0, 3, 9] []
    s.runstate = .running ∧ (Instr.add 3 9).decodesUnder s.params.aluExtDecode = true ∧
      s.pc.toNat + (encode (.add 3 9)).length = 256 ∧
      ∀ (k : Nat) (hk : k < (encode (.add 3 9)).length), s.mem.read (u8 (s.pc.toNat + k)) = (encode (.add 3 9))[k] := by
  decide

theorem witness_OperandsAreTheBytesAfterTheOpcode :
    (let s := at_ 255 [0x11] []; s.runstate = .running ∧
      decodeOpcode s.params.aluExtDecode (s.mem.read s.pc) = some .RET ∧
      widthOf (s.mem.read s.pc) = 1 ∧ s.pc.toNat + widthOf (s.mem.read s.pc) = 256) ∧
    (let s := at_ 254 [0x45, 3] []; s.runstate = .running ∧
      decodeOpcode s.params.aluExtDecode (s.mem.read s.pc) = some .PUSH ∧
      widthOf (s.mem.read s.pc) = 2 ∧ s.pc.toNat + widthOf (s.mem.read s.pc) = 256) ∧
    (let s := at_ 253 [0x82, 3, 4] []; s.runstate = .running ∧
      decodeOpcode s.params.aluExtDecode (s.mem.read s.pc) = some .LDI ∧
      widthOf (s.mem.read s.pc) = 3 ∧ s.pc.toNat + widthOf (s.mem.read s.pc) = 256) := by decide

theorem witness_IllegalOpcodeFaults : let s := at_ 255 [0xA1] []
    s.runstate = .running ∧ decodeOpcode s.params.aluExtDecode (s.mem.read s.pc) = none := by decide

theorem witness_OperandPastEndFaults : let s := at_ 255 [0x45] []
    s.runstate = .running ∧ decodeOpcode s.params.aluExtDecode (s.mem.read s.pc) = some .PUSH ∧
      256 < s.pc.toNat + widthOf (s.mem.read s.pc) := by decide

theorem witness_InvalidRegisterFaults : (Instr.jne 8).firstBadOperand = some 8 ∧
    (Instr.add 8 9).firstBadOperand = some 8 ∧ (Instr.add 7 255).firstBadOperand = some 255 := by decide

theorem witness_StoppedCoreExecutesNothing : State.reset.runstate = .ready ∧
    (after (boot true false [0x01])).runstate = .halted ∧ (after (boot true false [0xFF])).runstate = .faulted := by
  decide

theorem witness_SequentialAdvance : let s := at_ 252 [0xA0, 0, 7] []
    s.runstate = .running ∧ EndsInAdvance (.add 0 7) s ∧ s.pc.toNat + (Instr.add 0 7).width = 255 := by
  unfold EndsInAdvance
  decide

theorem witness_OffTheEndKeepsEffects : let s := at_ 254 [0x46, 7] []
    EndsInAdvance (.pop 7) s ∧ s.pc.toNat + (Instr.pop 7).width = 256 := by
  unfold EndsInAdvance
  decide

theorem witness_StepEndsRunningHaltedOrFaulted : (at_ 0 [] []).runstate = .running := by decide

/-- A step that emits, of a running core; the statements with the one hypothesis that a step or an `exec` answers. -/
theorem witness_step_answers : ∃ t, step (at_ 0 [0x47, 5] []) = .next t := ⟨_, rfl⟩

theorem witness_FaultRecordIsNeverRead :
    (at_ 0 [] []).runstate = .running ∧ (after (at_ 0 [] [])).runstate = .faulted ∧
      (after (at_ 0 [0x47, 5] [])).runstate = .running ∧ ∃ t, step (at_ 0 [] []) = .next t := by
  exact ⟨by decide, by decide, by decide, _, rfl⟩

theorem witness_FlagsBelongToCompare :
    (∃ t, exec (.add 0 1) (at_ 0 [] []) = .next t) ∧ (Instr.add 0 1).mnemonic ≠ .CMP ∧
    (∃ t, exec (.cmp 0 7) (at_ 0 [] []) = .next t) ∧ (Instr.cmp 0 7).wellFormed = true ∧
    (∃ t, exec (.cmp 0 8) (at_ 0 [] []) = .next t) ∧ (Instr.cmp 0 8).wellFormed = false ∧
    (after (at_ 0 [0xA7, 0, 1] [])).flags ≠ (at_ 0 [0xA7, 0, 1] []).flags ∧
    (∃ t, exec (.jeq 0) (at_ 0 [] []) = .next t) ∧ (⟨false, true, true⟩ : Flags).e = (at_ 0 [] []).flags.e := by
  exact ⟨⟨_, rfl⟩, by decide, ⟨_, rfl⟩, by decide, ⟨_, rfl⟩, by decide, by decide, ⟨_, rfl⟩, by decide⟩

theorem witness_OnlyPushAndCallStore : (∃ t, exec (.pop 0) (at_ 0 [] []) = .next t) ∧
    (Instr.pop 0).mnemonic ≠ .PUSH ∧ (Instr.pop 0).mnemonic ≠ .CALL ∧
    (∃ t, exec (.call 7) (at_ 0 [] []) = .next t) ∧ (Instr.call 7).mnemonic = .CALL :=
  ⟨⟨_, rfl⟩, by decide, by decide, ⟨_, rfl⟩, rfl⟩

theorem witness_RegistersWrittenAsTabled :
    (∃ t, exec (.pop 3) (at_ 0 [] []) = .next t) ∧ (6 : RegIdx).val ∉ instrWrites (.pop 3) := ⟨⟨_, rfl⟩, by decide⟩

theorem witness_OnlyPrnEmits :
    (∃ t, exec (.push 3) (at_ 0 [] []) = .next t) ∧ (Instr.push 3).mnemonic ≠ .PRN := ⟨⟨_, rfl⟩, by decide⟩

/-- A precise fault, the precise InvalidAddress of a CALL at 254, and the off-the-end fault. -/
theorem witness_FaultsArePrecise :
    (at_ 0 [] []).runstate = .running ∧ (after (at_ 0 [] [])).runstate = .faulted ∧
      (at_ 254 [0x50, 0] []).runstate = .running ∧ (after (at_ 254 [0x50, 0] [])).runstate = .faulted ∧
      (at_ 254 [0x47, 0] []).runstate = .running ∧ (after (at_ 254 [0x47, 0] [])).runstate = .faulted := by decide

/-- Each of the five codes a program can meet is met, and by each of its causes. -/
theorem witness_FaultsHaveTheirCause :
    (after (at_ 0 [] [])).fault.code = .illegalInstruction ∧
      (after (at_ 0 [0x47, 8] [])).fault.code = .invalidRegister ∧
      (after (at_ 255 [0x47] [])).fault.code = .invalidAddress ∧
      (after (at_ 254 [0x50, 0] [(7, 0)])).fault.code = .invalidAddress ∧
      (after (at_ 254 [0x47, 0] [])).fault.code = .invalidAddress ∧
      (after (at_ 254 [0x45, 0] [(7, 0)])).fault.code = .stackOverflow ∧
      (after (at_ 253 [0x50, 0] [(7, 0)])).fault.code = .stackOverflow ∧
      (after (at_ 255 [0x11] [(7, 255)])).fault.code = .stackUnderflow ∧
      (after (at_ 0 [0x46, 6] [(7, 255)])).fault.code = .stackUnderflow ∧
      (after { at_ 0 [0x46, 7] [] with mem := [(0, 0x46), (1, 7), (0xF4, 255)] }).fault.code = .stackUnderflow := by
  decide

/-- Neighbours of those causes that raise no such fault: HLT at 255, JMP at 254, POP R7 at the stack pointer 255 of a
byte that is not 255, POP of another register of a byte that is. -/
theorem test_no_fault : (after (at_ 255 [0x01] [])).runstate = .halted ∧
    (after (at_ 254 [0x54, 0] [])).runstate = .running ∧
    (after (at_ 0 [0x46, 7] [(7, 255)])).runstate = .running ∧
    (after { at_ 0 [] [] with mem := [(0, 0x46), (1, 6), (0xF4, 255)] }).runstate = .running := by decide

theorem witness_CheckedStackNeverStoresAtTop :
    (at_ 0 [] [(7, 0)]).params.stackBoundCheck = true ∧ ∃ t, exec (.push 0) (at_ 0 [] [(7, 0)]) = .next t :=
  ⟨rfl, _, rfl⟩

theorem witness_StepKeepsInvariant : (at_ 0 [0x45, 7] []).Inv ∧ ∃ t, step (at_ 0 [0x45, 7] []) = .next t := by
  refine ⟨⟨by decide, by unfold Flags.exclusive; decide, fun _ => by decide, fun h => absurd h (by decide)⟩, _, rfl⟩

theorem witness_HostActionsKeepInvariant : State.reset.Inv := by
  refine ⟨by decide, by unfold Flags.exclusive; decide, fun _ => by decide, fun h => absurd h (by decide)⟩

/-- The instructions of width 3 at both clauses of their end: successor 255 and 256. -/
theorem witness_width_three : (7 : Byte).toNat = (7 : RegIdx).val ∧ (0 : Byte).toNat = (0 : RegIdx).val ∧
    (∀ pc ∈ ([252, 253] : List Byte), Fits (.ldi 7 255) (at_ pc [] []) ∧ Fits (.add 7 0) (at_ pc [] []) ∧
      Fits (.mul 7 0) (at_ pc [] []) ∧ Fits (.sub 7 0) (at_ pc [] []) ∧ Fits (.cmp 7 0) (at_ pc [] []) ∧
      (at_ pc [] []).pc.toNat + 3 ≤ 256) ∧
    (at_ 252 [] []).pc.toNat + 3 = 255 ∧ (at_ 253 [] []).pc.toNat + 3 = 256 := by
  unfold Fits
  decide

theorem witness_PrnEmitsRegister : (7 : Byte).toNat = (7 : RegIdx).val ∧ Fits (.prn 7) (at_ 253 [] []) ∧
    Fits (.prn 7) (at_ 254 [] []) := by
  unfold Fits
  decide

theorem witness_AluPort : alu 0x0 255 1 = some 0 ∧ alu 0x1 0 255 = some 1 ∧ alu 0x2 255 255 = some 1 ∧
    alu 0x8 0xCC 0xAA = some 0x88 ∧ alu 0xA 0xCC 0xAA = some 0xEE ∧ alu 0xB 0xCC 0xAA = some 0x66 := by decide

theorem witness_UnsupportedTagFaults : (0 : Byte).toNat = (0 : RegIdx).val ∧
    (7 : Byte).toNat = (7 : RegIdx).val ∧ (0x3 : AluTag).toNat ∉ [0x0, 0x1, 0x2, 0x8, 0xA, 0xB] ∧
    (0xF : AluTag).toNat ∉ [0x0, 0x1, 0x2, 0x8, 0xA, 0xB] := by decide

/-- PUSH with the check on and off, and both clauses of its end. -/
theorem witness_PushStoresRegister : (7 : Byte).toNat = (7 : RegIdx).val ∧
    (let s := at_ 253 [] [(7, 1)]; Fits (.push 7) s ∧ s.mem.wf = true ∧
      s.params.stackBoundCheck = true ∧ s.reg SP ≠ 0) ∧
    (let s := { boot false false [] with pc := 254, regs := #v[1, 2, 3, 4, 5, 6, 7, 0] };
      Fits (.push 7) s ∧ s.mem.wf = true ∧ s.params.stackBoundCheck = false ∧ s.reg SP = 0) := by
  unfold Fits
  decide

theorem witness_PopLoadsRegister : (6 : Byte).toNat = (6 : RegIdx).val ∧ (6 : RegIdx) ≠ SP ∧
    (let s := at_ 253 [] [(7, 254)]; Fits (.pop 6) s ∧ s.params.stackBoundCheck = true ∧ s.reg SP ≠ 255) ∧
    (let s := { boot false false [] with pc := 254, regs := #v[1, 2, 3, 4, 5, 6, 7, 255] };
      Fits (.pop 6) s ∧ s.params.stackBoundCheck = false ∧ s.reg SP = 255) := by
  unfold Fits
  decide

theorem witness_PopStackPointer : (7 : Byte).toNat = 7 ∧
    (let s := at_ 253 [] [(7, 255)]; Fits (.pop 7) s ∧ s.params.stackBoundCheck = true ∧
      s.mem.read (s.reg SP) ≠ 255) ∧
    Fits (.pop 7) (at_ 254 [] []) := by
  unfold Fits
  decide

theorem witness_StackOverflowFaults : (7 : Byte).toNat < 8 ∧
    (let s := at_ 253 [] [(7, 0)]; s.params.stackBoundCheck = true ∧ s.reg SP = 0 ∧ s.pc.toNat ≤ 253) := by decide

theorem witness_StackUnderflowFaults : (6 : Byte).toNat < 7 ∧ (7 : Byte).toNat = 7 ∧
    (let s := at_ 0 [] [(7, 255)]; s.params.stackBoundCheck = true ∧ s.reg SP = 255) ∧
    (let s := { at_ 0 [] [] with mem := [(0xF4, 255)] };
      s.params.stackBoundCheck = true ∧ s.mem.read (s.reg SP) = 255) := by decide

theorem witness_PushPopRoundTrip : (0 : Byte).toNat = (0 : RegIdx).val ∧ (6 : Byte).toNat = (6 : RegIdx).val ∧
    (0 : RegIdx) ≠ SP ∧ (6 : RegIdx) ≠ SP ∧
    (let s := at_ 252 [] [(7, 1)]; s.mem.wf = true ∧ s.pc.toNat ≤ 252 ∧ s.reg SP ≠ 0) := by decide

theorem witness_CallPushesReturnAddress : (7 : Byte).toNat = (7 : RegIdx).val ∧
    (let s := at_ 253 [] [(7, 1)]; s.pc.toNat ≤ 253 ∧ s.mem.wf = true ∧ s.reg SP ≠ 0) := by decide

theorem witness_CallReturnAddressFaults : (7 : Byte).toNat < 8 ∧ (at_ 254 [] [(7, 0)]).pc.toNat = 254 := by decide

theorem witness_RetPopsProgramCounter :
    (at_ 255 [] [(7, 254)]).params.stackBoundCheck = true ∧ (at_ 255 [] [(7, 254)]).reg SP ≠ 255 := by decide

theorem witness_JmpSetsProgramCounter : (7 : Byte).toNat = (7 : RegIdx).val := by decide

/-- JEQ and JNE with Equal set and clear, and both clauses of the end of a jump not taken. -/
theorem witness_conditional_jumps : (7 : Byte).toNat = (7 : RegIdx).val ∧
    (∀ pc ∈ ([253, 254] : List Byte), Fits (.jeq 7) (at_ pc [] []) ∧ Fits (.jne 7) (at_ pc [] []) ∧
      (at_ pc [] []).flags.e = false ∧ ({ at_ pc [] [] with flags := ⟨true, false, false⟩ } : State).flags.e = true) := by
  unfold Fits
  decide

/-- K5's first CALL, and that its target holds a RET. -/
theorem witness_CallReturnRoundTrip :
    let s := { at_ 3 [] [(1, 7)] with mem := [(3, 0x50), (4, 1), (5, 1), (7, 0x11)] }
    s.runstate = .running ∧ s.mem.wf = true ∧ s.pc.toNat ≤ 253 ∧ s.mem.read s.pc = opcode .CALL ∧
      (s.mem.read (u8 (s.pc.toNat + 1))).toNat = (1 : RegIdx).val ∧ s.reg SP ≠ 0 ∧
      (after s).mem.read (after s).pc = opcode .RET := by decide

theorem witness_MemoryIsItsCells : Memory.wf [(0, 1), (255, 2)] = true := by decide

theorem witness_StoredByteIsFetchedNext : (0 : Byte).toNat = (0 : RegIdx).val ∧ (0 : RegIdx) ≠ SP ∧
    (let s := at_ 252 [] [(7, 255)]; s.mem.wf = true ∧ s.pc.toNat ≤ 253 ∧ (s.reg SP).toNat = s.pc.toNat + 3) := by
  decide

/-- A load of all 256 cells, one of 257, and one of a core that is not Ready. -/
theorem witness_LoadPlacesProgram : State.reset.mem.wf = true ∧ State.reset.runstate = .ready ∧
    (List.replicate 256 (1 : Byte)).length ≤ 256 ∧ 256 < (List.replicate 257 (1 : Byte)).length ∧
    (boot true false []).runstate ≠ .ready :=
  ⟨rfl, rfl, by rw [List.length_replicate], by rw [List.length_replicate]; decide, by decide⟩

theorem witness_StartRunsReadyCore :
    State.reset.runstate = .ready ∧ (boot true false []).runstate ≠ .ready := by decide

theorem witness_FirstInstructionIsAtZero : ([0x82, 0, 9] : List Byte).length ≤ 256 := by decide

end Sys2Proof.Tests
end

namespace Sys2Proof.Machine

/-! ## The inversion of `step` -/

/-- What `step s = .next t` can be (40_execution_cycle.md R100 to R103, R113, R114). -/
inductive StepOutcome : State → State → Prop where
  | stopped {s} : s.stopped → StepOutcome s s
  | illegalOpcode {s} : s.runstate = .running → decodeOpcode s.params.aluExtDecode s.fetchOpcode = none →
      StepOutcome s (raise .illegalInstruction s.fetchOpcode s.fetchOpcode.toNat s)
  | operandPastEnd {s m} : s.runstate = .running →
      decodeOpcode s.params.aluExtDecode s.fetchOpcode = some m → 256 < s.pc.toNat + widthOf s.fetchOpcode →
      StepOutcome s (raise .invalidAddress s.fetchOpcode 256 s)
  | instruction {s t i rest} : s.runstate = .running →
      decode s.params.aluExtDecode s.fetchBytes = .ok (i, rest) → exec i s = .next t → StepOutcome s t

/-- The inversion lemma of `step`: claims over all steps split on `StepOutcome` and never unfold `step` or `cycle`. -/
theorem step_cases {s t : State} (h : step s = .next t) : StepOutcome s t := by
  by_cases hr : s.runstate = .running
  · rw [step_of_running hr] at h
    obtain ⟨hop, hc⟩ | ⟨m, hop, ⟨-, a, b, rest, hd, hc⟩ | ⟨hw, hc⟩⟩ := cycle_cases s
    · cases hc.symm.trans h
      exact .illegalOpcode hr hop
    · exact .instruction hr hd (hc.symm.trans h)
    · cases hc.symm.trans h
      exact .operandPastEnd hr hop hw
  · cases (step_of_stopped hr).symm.trans h
    exact .stopped hr

/-! ## The parameters -/

@[simp] theorem pushExecute_params (ra : RegIdx) (s : State) : (pushExecute ra s).params = s.params := rfl
@[simp] theorem popExecute_params (ra : RegIdx) (s : State) : (popExecute ra s).params = s.params := rfl
@[simp] theorem callExecute_params (ra : RegIdx) (s : State) : (callExecute ra s).params = s.params := rfl
@[simp] theorem retExecute_params (s : State) : (retExecute s).params = s.params := rfl

/-- No instruction changes the parameters: each outcome is an execute phase that keeps them, a fault, or one of these
under the sequential advance. -/
theorem exec_params {i : Instr} {s t : State} (h : exec i s = .next t) : t.params = s.params := by
  cases exec_cases h
  case hlt => exact halt_params s
  case invalidRegister | retUnderflow | pushOverflow | popUnderflow | callReturnAddress | callOverflow =>
    exact raise_params _ _ _ s
  case jmp | jeqTaken | jneTaken => exact jumpTo_params _ s
  case ret => exact retExecute_params s
  case call => exact callExecute_params _ s
  all_goals simp only [advance_params, pushExecute_params, popExecute_params, emit_params, State.writeReg_params,
    State.writeFlags_params]

/-- Settles O16, by the outcomes of a step: nothing, a fault of the fetch, or an instruction. -/
theorem stepKeepsParameters : Obligations.StepKeepsParameters := by
  intro s t h
  cases step_cases h with
  | stopped => rfl
  | illegalOpcode | operandPastEnd => exact raise_params _ _ _ s
  | instruction _ _ hexec => exact exec_params hexec

end Sys2Proof.Machine

namespace Sys2Proof.Machine

/-! ## Changes of state that an instruction does not see

The three noninterference claims (the output, the fault record, the flags) are one argument: a change `g` of the state
that touches nothing the instruction reads, and that commutes with what it writes, commutes with the instruction. -/

/-- `g` touches nothing that instruction `i` reads in state `s`, and commutes with every operation `i` does there. What
one instruction alone does or reads (HLT, PRN, CMP; Equal for JEQ and JNE) is asked for that instruction alone. -/
structure Unseen (i : Instr) (s : State) (g : State → State) : Prop where
  regs_eq (u : State) : (g u).regs = u.regs
  pc_eq (u : State) : (g u).pc = u.pc
  mem_eq (u : State) : (g u).mem = u.mem
  params_eq (u : State) : (g u).params = u.params
  raise_comm (c : FaultCode) (op : Byte) (n : Nat) (u : State) : raise c op n (g u) = g (raise c op n u)
  jumpTo_comm (a : Byte) (u : State) : jumpTo a (g u) = g (jumpTo a u)
  writeReg_comm (r : RegIdx) (v : Byte) (u : State) : (g u).writeReg r v = g (u.writeReg r v)
  storeAtSP_comm (v : Byte) (u : State) : storeAtSP v (g u) = g (storeAtSP v u)
  halt_comm : i.mnemonic = .HLT → halt (g s) = g (halt s)
  emit_comm : i.mnemonic = .PRN → ∀ v, emit v (g s) = g (emit v s)
  writeFlags_comm : i.mnemonic = .CMP → ∀ f, (g s).writeFlags f = g (s.writeFlags f)
  equal_eq : i.mnemonic = .JEQ ∨ i.mnemonic = .JNE → (g s).flags.e = s.flags.e

namespace Unseen

variable {i : Instr} {s t : State} {g : State → State} (hg : Unseen i s g)
include hg

theorem reg_eq (u : State) (r : RegIdx) : (g u).reg r = u.reg r := State.reg_congr (hg.regs_eq u) r

theorem loadAtSP_eq (u : State) : (g u).loadAtSP = u.loadAtSP := by
  simp only [State.loadAtSP, hg.mem_eq, hg.reg_eq]

theorem nextSeq_eq (op : Byte) (u : State) : nextSeq op (g u) = nextSeq op u := by
  simp only [nextSeq, hg.pc_eq]

theorem overflow_eq (u : State) : (g u).stackWouldOverflow = u.stackWouldOverflow := by
  simp only [State.stackWouldOverflow, hg.params_eq, hg.reg_eq]

theorem underflow_eq (u : State) (sp : Byte) : (g u).stackWouldUnderflow sp = u.stackWouldUnderflow sp := by
  simp only [State.stackWouldUnderflow, hg.params_eq]

theorem popIncrementBase_eq (ra : RegIdx) (u : State) : popIncrementBase ra (g u) = popIncrementBase ra u := by
  simp only [popIncrementBase, hg.loadAtSP_eq, hg.reg_eq]

theorem advance_comm (op : Byte) (u : State) : advance op (g u) = g (advance op u) := by
  unfold advance
  rw [hg.nextSeq_eq]
  split
  · exact hg.jumpTo_comm _ u
  · exact hg.raise_comm _ _ _ u

theorem decSP_comm (u : State) : decSP (g u) = g (decSP u) := by
  simp only [decSP, hg.reg_eq, hg.writeReg_comm]

theorem pushExecute_comm (ra : RegIdx) (u : State) : pushExecute ra (g u) = g (pushExecute ra u) := by
  simp only [pushExecute, hg.decSP_comm, hg.reg_eq, hg.storeAtSP_comm]

theorem popExecute_comm (ra : RegIdx) (u : State) : popExecute ra (g u) = g (popExecute ra u) := by
  simp only [popExecute, hg.popIncrementBase_eq, hg.loadAtSP_eq, hg.writeReg_comm]

theorem callExecute_comm (ra : RegIdx) (u : State) : callExecute ra (g u) = g (callExecute ra u) := by
  simp only [callExecute, hg.nextSeq_eq, hg.decSP_comm, hg.storeAtSP_comm, hg.reg_eq, hg.jumpTo_comm]

theorem retExecute_comm (u : State) : retExecute (g u) = g (retExecute u) := by
  simp only [retExecute, hg.loadAtSP_eq, hg.reg_eq, hg.writeReg_comm, hg.jumpTo_comm]

/-- A jump to a named register. -/
theorem jumpTo_reg_comm (r : RegIdx) (u : State) : jumpTo ((g u).reg r) (g u) = g (jumpTo (u.reg r) u) := by
  rw [hg.reg_eq, hg.jumpTo_comm]

/-- An ALU instruction's or an LDI's effect: one register written, then the advance. -/
theorem advance_writeReg_comm (op : Byte) (r : RegIdx) (v : Byte) (u : State) :
    advance op ((g u).writeReg r v) = g (advance op (u.writeReg r v)) := by
  rw [hg.writeReg_comm, hg.advance_comm]

/-- The instruction takes the changed state where the change takes its result. -/
theorem outcome (h : ExecOutcome i s t) : ExecOutcome i (g s) (g t) := by
  cases h with
  | invalidRegister hb => exact hg.raise_comm .. ▸ .invalidRegister hb
  | hlt => exact hg.halt_comm rfl ▸ .hlt
  | retUnderflow h => exact hg.raise_comm .. ▸ .retUnderflow (by rwa [hg.underflow_eq, hg.reg_eq])
  | ret h => exact hg.retExecute_comm s ▸ .ret (by rwa [hg.underflow_eq, hg.reg_eq])
  | pushOverflow ha h => exact hg.raise_comm .. ▸ .pushOverflow ha (by rwa [hg.overflow_eq])
  | push ha h =>
    rw [← hg.advance_comm, ← hg.pushExecute_comm]
    exact .push ha (by rwa [hg.overflow_eq])
  | popUnderflow ha h =>
    exact hg.raise_comm .. ▸ .popUnderflow ha (by rwa [hg.underflow_eq, hg.popIncrementBase_eq])
  | pop ha h =>
    rw [← hg.advance_comm, ← hg.popExecute_comm]
    exact .pop ha (by rwa [hg.underflow_eq, hg.popIncrementBase_eq])
  | prn ha =>
    rw [← hg.advance_comm, ← hg.emit_comm rfl, ← hg.reg_eq]
    exact .prn ha
  | callReturnAddress ha hn =>
    rw [← hg.raise_comm, ← hg.nextSeq_eq]
    exact .callReturnAddress ha (by rwa [hg.nextSeq_eq])
  | callOverflow ha hn h =>
    exact hg.raise_comm .. ▸ .callOverflow ha (by rwa [hg.nextSeq_eq]) (by rwa [hg.overflow_eq])
  | call ha hn h =>
    exact hg.callExecute_comm .. ▸ .call ha (by rwa [hg.nextSeq_eq]) (by rwa [hg.overflow_eq])
  | jmp ha => exact hg.jumpTo_reg_comm .. ▸ .jmp ha
  | jeqTaken ha he => exact hg.jumpTo_reg_comm .. ▸ .jeqTaken ha ((hg.equal_eq (.inl rfl)).trans he)
  | jeqNotTaken ha he => exact hg.advance_comm .. ▸ .jeqNotTaken ha ((hg.equal_eq (.inl rfl)).trans he)
  | jneTaken ha he => exact hg.jumpTo_reg_comm .. ▸ .jneTaken ha ((hg.equal_eq (.inr rfl)).trans he)
  | jneNotTaken ha he => exact hg.advance_comm .. ▸ .jneNotTaken ha ((hg.equal_eq (.inr rfl)).trans he)
  | ldi ha => exact hg.advance_writeReg_comm .. ▸ .ldi ha
  | cmp ha hb =>
    rw [← hg.advance_comm, ← hg.writeFlags_comm rfl, ← hg.reg_eq, ← hg.reg_eq s]
    exact .cmp ha hb
  | add ha hb => simpa only [hg.reg_eq, hg.advance_writeReg_comm] using ExecOutcome.add (s := g s) ha hb
  | mul ha hb => simpa only [hg.reg_eq, hg.advance_writeReg_comm] using ExecOutcome.mul (s := g s) ha hb
  | sub ha hb => simpa only [hg.reg_eq, hg.advance_writeReg_comm] using ExecOutcome.sub (s := g s) ha hb
  | and ha hb => simpa only [hg.reg_eq, hg.advance_writeReg_comm] using ExecOutcome.and (s := g s) ha hb
  | or ha hb => simpa only [hg.reg_eq, hg.advance_writeReg_comm] using ExecOutcome.or (s := g s) ha hb
  | xor ha hb => simpa only [hg.reg_eq, hg.advance_writeReg_comm] using ExecOutcome.xor (s := g s) ha hb

/-- An instruction commutes with a change it does not see. -/
theorem exec_eq (h : exec i s = .next t) : exec i (g s) = .next (g t) :=
  exec_of_outcome (hg.outcome (exec_cases h))

end Unseen

/-- Each outcome of a step happens: `StepOutcome` says exactly what `step` does. -/
theorem step_of_outcome {s t : State} (h : StepOutcome s t) : step s = .next t := by
  cases h with
  | stopped hs => exact step_of_stopped hs
  | illegalOpcode hr hop =>
    obtain ⟨-, hc⟩ | ⟨m, hm, -⟩ := cycle_cases s
    · rw [step_of_running hr, hc]
    · rw [hop] at hm
      cases hm
  | operandPastEnd hr hop hw =>
    obtain ⟨hn, -⟩ | ⟨m, -, ⟨hle, -⟩ | ⟨-, hc⟩⟩ := cycle_cases s
    · rw [hop] at hn
      cases hn
    · omega
    · rw [step_of_running hr, hc]
  | instruction hr hd hexec => rw [step_of_running hr, cycle, hd, ← hexec]

/-- A step commutes with a change that no instruction sees there and that leaves the run state. -/
theorem step_unseen {s t : State} {g : State → State} (hg : ∀ i, Unseen i s g) (hrun : (g s).runstate = s.runstate)
    (h : step s = .next t) : step (g s) = .next (g t) := by
  have hparams := (hg .hlt).params_eq s
  have hpc := (hg .hlt).pc_eq s
  have hop : (g s).fetchOpcode = s.fetchOpcode := by
    simp only [State.fetchOpcode, (hg .hlt).mem_eq, hpc]
  apply step_of_outcome
  cases step_cases h with
  | stopped hs => exact .stopped (by rwa [State.stopped, hrun])
  | illegalOpcode hr hill =>
    rw [← (hg .hlt).raise_comm, ← hop]
    exact .illegalOpcode (hrun.trans hr) (by rwa [hparams, hop])
  | operandPastEnd hr hm hw =>
    rw [← (hg .hlt).raise_comm, ← hop]
    exact .operandPastEnd (hrun.trans hr) (by rwa [hparams, hop]) (by rwa [hpc, hop])
  | instruction hr hd hexec =>
    have hbytes : (g s).fetchBytes = s.fetchBytes := by simp only [State.fetchBytes, (hg .hlt).mem_eq, hpc]
    exact .instruction (hrun.trans hr) (by rwa [hparams, hbytes]) ((hg _).exec_eq hexec)

/-! ## The output -/

/-- An instruction leaves the output alone, or it is PRN and emits one byte (10_state.md R34; 41_data_io.md R132). -/
theorem exec_out {i : Instr} {s t : State} (h : exec i s = .next t) :
    t.out = s.out ∨ i.mnemonic = .PRN ∧ ∃ v, t.out = s.out ++ [v] := by
  cases exec_cases h
  case prn => exact .inr ⟨rfl, _, advance_out _ _⟩
  case push | pop | jeqNotTaken | jneNotTaken | ldi | cmp | add | mul | sub | and | or | xor =>
    exact .inl (advance_out _ _)
  all_goals exact .inl rfl

/-- Settles O22. -/
theorem onlyPrnEmits : Obligations.OnlyPrnEmits := by
  intro i s t h hi
  obtain hout | ⟨hprn, -⟩ := exec_out h
  · exact hout
  · exact absurd hprn hi

/-- The state with `p` in the place of the first `n` bytes of the output. -/
def State.rebaseOut (n : Nat) (p : List Byte) (s : State) : State := { s with out := p ++ s.out.drop n }

/-- No instruction sees what was emitted before it. -/
theorem unseen_rebaseOut (i : Instr) (s : State) (p : List Byte) :
    Unseen i s (State.rebaseOut s.out.length p) where
  regs_eq _ := rfl
  pc_eq _ := rfl
  mem_eq _ := rfl
  params_eq _ := rfl
  raise_comm _ _ _ _ := rfl
  jumpTo_comm _ _ := rfl
  writeReg_comm _ _ _ := rfl
  storeAtSP_comm _ _ := rfl
  halt_comm _ := rfl
  emit_comm _ v := by simp [State.rebaseOut, emit]
  writeFlags_comm _ _ := rfl
  equal_eq _ := rfl

/-- A step appends at most one byte; outside an instruction it emits nothing. -/
theorem step_out {s t : State} (h : step s = .next t) : ∃ e : List Byte, e.length ≤ 1 ∧ t.out = s.out ++ e := by
  cases step_cases h with
  | stopped | illegalOpcode | operandPastEnd => exact ⟨[], Nat.zero_le 1, (List.append_nil _).symm⟩
  | instruction _ _ hexec =>
    obtain hout | ⟨-, v, hout⟩ := exec_out hexec
    · exact ⟨[], Nat.zero_le 1, by rw [hout, List.append_nil]⟩
    · exact ⟨[v], le_rfl, hout⟩

/-- Settles O17: a step commutes with the replacement of the bytes emitted before it. -/
theorem outputIsWriteOnly : Obligations.OutputIsWriteOnly := by
  intro s t h
  obtain ⟨e, he, hout⟩ := step_out h
  refine ⟨e, he, hout, fun p => ?_⟩
  have hstep := step_unseen (fun i => unseen_rebaseOut i s p) rfl h
  simpa [State.rebaseOut, hout] using hstep

/-! ## The fault record -/

/-- The state with `f` for its fault record, unless it is Faulted, where the record has just been written. -/
def State.replaceFault (f : FaultRecord) (s : State) : State :=
  { s with fault := if s.runstate = .faulted then s.fault else f }

theorem State.replaceFault_of_faulted {s : State} (h : s.runstate = .faulted) (f : FaultRecord) :
    s.replaceFault f = s := by
  simp only [State.replaceFault, if_pos h]

theorem State.replaceFault_of_not_faulted {s : State} (h : s.runstate ≠ .faulted) (f : FaultRecord) :
    s.replaceFault f = { s with fault := f } := by
  simp only [State.replaceFault, if_neg h]

/-- No instruction of a running core sees the fault record, and a fault overwrites it. -/
theorem unseen_replaceFault (i : Instr) {s : State} (hr : s.runstate ≠ .faulted) (f : FaultRecord) :
    Unseen i s (State.replaceFault f) where
  regs_eq _ := rfl
  pc_eq _ := rfl
  mem_eq _ := rfl
  params_eq _ := rfl
  raise_comm _ _ _ _ := rfl
  jumpTo_comm _ _ := rfl
  writeReg_comm _ _ _ := rfl
  storeAtSP_comm _ _ := rfl
  halt_comm _ := by
    rw [State.replaceFault_of_not_faulted hr, State.replaceFault_of_not_faulted (s := halt s) nofun]
    rfl
  emit_comm _ _ := rfl
  writeFlags_comm _ _ := rfl
  equal_eq _ := rfl

/-- Settles O18: a running core's step commutes with the replacement of the record. -/
theorem faultRecordIsNeverRead : Obligations.FaultRecordIsNeverRead := by
  intro s t f hr h
  have hs : s.runstate ≠ .faulted := by simp [hr]
  have hstep := step_unseen (fun i => unseen_replaceFault i hs f) rfl h
  rw [State.replaceFault_of_not_faulted hs] at hstep
  refine ⟨fun ht => ?_, fun ht => ?_⟩
  · rwa [State.replaceFault_of_faulted ht] at hstep
  · rwa [State.replaceFault_of_not_faulted ht] at hstep

/-! ## The flags -/

/-- No instruction but CMP changes the flags (10_state.md R29). -/
theorem exec_flags {i : Instr} {s t : State} (h : exec i s = .next t) (hi : i.mnemonic ≠ .CMP) :
    t.flags = s.flags := by
  cases exec_cases h
  case cmp => exact absurd rfl hi
  case push | pop | prn | jeqNotTaken | jneNotTaken | ldi | add | mul | sub | and | or | xor =>
    exact advance_flags _ _
  all_goals rfl

/-- A compare sets exactly one flag (44_alu_compare.md R171). -/
theorem compareFlags_cases (va vb : Byte) :
    compareFlags va vb = ⟨true, false, false⟩ ∨ compareFlags va vb = ⟨false, true, false⟩ ∨
      compareFlags va vb = ⟨false, false, true⟩ := by
  unfold compareFlags
  rcases Nat.lt_trichotomy va.toNat vb.toNat with hlt | heq | hgt
  · exact .inr (.inr (by simp [hlt, hlt.ne, hlt.le]))
  · exact .inl (by simp [heq])
  · exact .inr (.inl (by simp [hgt, hgt.ne', hgt.le]))

/-- What CMP does to the flags: with registers for operands it sets exactly one, otherwise it leaves them. -/
theorem exec_cmp_flags {a b : Byte} {s t : State} (h : exec (.cmp a b) s = .next t) :
    (Instr.cmp a b).wellFormed = true ∧
      (t.flags = ⟨true, false, false⟩ ∨ t.flags = ⟨false, true, false⟩ ∨ t.flags = ⟨false, false, true⟩) ∨
    (Instr.cmp a b).wellFormed = false ∧ t.flags = s.flags := by
  cases exec_cases h with
  | invalidRegister hb =>
    refine .inr ⟨?_, rfl⟩
    rw [Bool.eq_false_iff, Ne, wellFormed_iff_no_bad, hb]
    nofun
  | @cmp _ _ _ ra rb ha hb =>
    refine .inl ⟨wellFormed_of_operands (by simp [Instr.regOperands, ha, hb]), ?_⟩
    rw [advance_flags]
    exact compareFlags_cases (s.reg ra) (s.reg rb)

/-- An instruction with the mnemonic CMP is a compare of two operand bytes. -/
theorem eq_cmp_of_mnemonic {i : Instr} (h : i.mnemonic = .CMP) : ∃ a b, i = .cmp a b := by
  cases i <;> cases h
  exact ⟨_, _, rfl⟩

/-- No instruction but JEQ and JNE sees the flags, these see Equal only, and CMP alone writes them. -/
theorem unseen_writeFlags {i : Instr} {s : State} {f : Flags} (hcmp : i.mnemonic ≠ .CMP)
    (he : i.mnemonic = .JEQ ∨ i.mnemonic = .JNE → f.e = s.flags.e) : Unseen i s (State.writeFlags · f) where
  regs_eq _ := rfl
  pc_eq _ := rfl
  mem_eq _ := rfl
  params_eq _ := rfl
  raise_comm _ _ _ _ := rfl
  jumpTo_comm _ _ := rfl
  writeReg_comm _ _ _ := rfl
  storeAtSP_comm _ _ := rfl
  halt_comm _ := rfl
  emit_comm _ _ := rfl
  writeFlags_comm h := absurd h hcmp
  equal_eq := he

/-- CMP under other flags differs in the flags at most. -/
theorem exec_cmp_writeFlags {a b : Byte} {s t : State} (f : Flags) (h : exec (.cmp a b) s = .next t) :
    ∃ t', exec (.cmp a b) (s.writeFlags f) = .next t' ∧ t'.writeFlags t.flags = t := by
  cases exec_cases h with
  | invalidRegister hb => exact ⟨_, exec_of_outcome (.invalidRegister hb), rfl⟩
  | cmp ha hb => exact ⟨_, exec_of_outcome (.cmp ha hb), rfl⟩

/-- Settles O19. -/
theorem flagsBelongToCompare : Obligations.FlagsBelongToCompare := by
  refine ⟨fun i s t => exec_flags, fun a b s t h => ?_, fun s t h hne => ?_, fun i s t f h he => ?_⟩
  · obtain ⟨hwf, hone⟩ | ⟨hwf, hsame⟩ := exec_cmp_flags h
    · exact ⟨fun _ => hone, by simp [hwf]⟩
    · exact ⟨by simp [hwf], fun _ => hsame⟩
  · cases step_cases h with
    | stopped | illegalOpcode | operandPastEnd => exact absurd rfl hne
    | @instruction _ i rest _ hd hexec =>
      by_cases hi : i.mnemonic = .CMP
      · obtain ⟨a, b, rfl⟩ := eq_cmp_of_mnemonic hi
        exact ⟨a, b, rest, hd⟩
      · exact absurd (exec_flags hexec hi) hne
  · by_cases hi : i.mnemonic = .CMP
    · obtain ⟨a, b, rfl⟩ := eq_cmp_of_mnemonic hi
      exact exec_cmp_writeFlags f h
    · exact ⟨_, (unseen_writeFlags hi he).exec_eq h, rfl⟩

/-! ## The registers -/

theorem pushExecute_reg_of_ne (ra : RegIdx) (s : State) {r : RegIdx} (h : r ≠ SP) :
    (pushExecute ra s).reg r = s.reg r := by
  rw [pushExecute, storeAtSP_reg, decSP_reg_of_ne s h]

theorem callExecute_reg_of_ne (ra : RegIdx) (s : State) {r : RegIdx} (h : r ≠ SP) :
    (callExecute ra s).reg r = s.reg r := by
  rw [callExecute, jumpTo_reg, storeAtSP_reg, decSP_reg_of_ne s h]

theorem retExecute_reg_of_ne (s : State) {r : RegIdx} (h : r ≠ SP) : (retExecute s).reg r = s.reg r := by
  rw [retExecute, jumpTo_reg, State.reg_writeReg_of_ne s _ h.symm]

theorem popExecute_reg_of_ne {ra r : RegIdx} (s : State) (hra : r ≠ ra) (h : r ≠ SP) :
    (popExecute ra s).reg r = s.reg r := by
  rw [popExecute, State.reg_writeReg_of_ne _ _ h.symm, State.reg_writeReg_of_ne s _ hra.symm]

/-- A register whose number is not the one an operand byte holds is not the register the byte names. -/
theorem ne_of_val_ne {a : Byte} {r ra : RegIdx} (ha : a.toNat = ra.val) (h : r.val ≠ a.toNat) : r ≠ ra :=
  fun e => h (ha ▸ congrArg Fin.val e)

/-- A register whose number is not 7 is not the stack pointer. -/
theorem ne_SP_of_val_ne {r : RegIdx} (h : r.val ≠ 7) : r ≠ SP := fun e => h (congrArg Fin.val e)

/-- Settles O21, along the rows of the access table: none, the stack pointer, the named register, or both. -/
theorem registersWrittenAsTabled : Obligations.RegistersWrittenAsTabled := by
  intro i s t h r hr
  cases exec_cases h
  case push =>
    exact (advance_reg _ _ r).trans (pushExecute_reg_of_ne _ s (ne_SP_of_val_ne (mt List.mem_singleton.2 hr)))
  case call => exact callExecute_reg_of_ne _ s (ne_SP_of_val_ne (mt List.mem_singleton.2 hr))
  case ret => exact retExecute_reg_of_ne s (ne_SP_of_val_ne (mt List.mem_singleton.2 hr))
  case pop ha _ =>
    obtain ⟨hra, hsp⟩ := not_or.1 (mt List.mem_pair.2 hr)
    exact (advance_reg _ _ r).trans (popExecute_reg_of_ne s (ne_of_val_ne ha hra) (ne_SP_of_val_ne hsp))
  case ldi ha | add ha _ | mul ha _ | sub ha _ | and ha _ | or ha _ | xor ha _ =>
    have hra := ne_of_val_ne ha (mt List.mem_singleton.2 hr)
    exact (advance_reg _ _ r).trans (State.reg_writeReg_of_ne s _ hra.symm)
  case prn | cmp | jeqNotTaken | jneNotTaken => exact advance_reg _ _ r
  all_goals rfl

/-! ## Memory -/

/-- Settles O53: past address 255 canonical memories list nothing. -/
theorem memoryIsItsCells : Obligations.MemoryIsItsCells := by
  intro m n hm hn h
  refine Memory.eq_of_lookup hm hn fun a => ?_
  by_cases ha : a < 256
  · have hread := h (u8 a)
    rwa [Memory.read, Memory.read, u8_toNat, Nat.mod_eq_of_lt ha] at hread
  · rw [Memory.lookup_of_ge hm (Nat.not_lt.1 ha), Memory.lookup_of_ge hn (Nat.not_lt.1 ha)]

/-- Every instruction keeps the canonical form. -/
theorem exec_mem_wf {i : Instr} {s t : State} (h : exec i s = .next t) (hwf : s.mem.wf = true) :
    t.mem.wf = true := by
  cases exec_cases h
  case push => exact (advance_mem _ _).symm ▸ Memory.wf_write hwf _ _
  case call => exact Memory.wf_write hwf _ _
  case pop | prn | jeqNotTaken | jneNotTaken | ldi | cmp | add | mul | sub | and | or | xor =>
    exact (advance_mem _ _).symm ▸ hwf
  all_goals exact hwf

/-! ## The instruction fits -/

/-- The operand fetch of an instruction of up to three bytes answers only when the bytes are there. -/
theorem width_le_of_takeOperands {w : Nat} {bytes rest : List Byte} {a b : Byte} (hw : w ≤ 3)
    (h : takeOperands w bytes = .ok (a, b, rest)) : w ≤ bytes.length + 1 := by
  by_contra hlt
  rcases bytes with _ | ⟨x, _ | ⟨y, l⟩⟩ <;> simp only [List.length_nil, List.length_cons] at hlt
  · obtain rfl | rfl : w = 2 ∨ w = 3 := by omega
    · cases h
    · cases h
  · obtain rfl : w = 3 := by omega
    cases h
  · omega

/-- No instruction is longer than three bytes (30_encoding.md R80). -/
theorem widthOf_opcode_le (m : Mnemonic) : widthOf (opcode m) ≤ 3 := by
  cases m <;> decide

/-- An instruction that the fetch and decode answer ends at or before the last address (40_execution_cycle.md R102). -/
theorem fits_of_decode {s : State} {i : Instr} {rest : List Byte}
    (h : decode s.params.aluExtDecode s.fetchBytes = .ok (i, rest)) : Fits i s := by
  have hpc := s.pc.isLt
  have hlen := bytesFrom_length s.mem (s.pc.toNat + 1) 2 (by omega)
  rw [fetchBytes_eq] at h
  obtain ⟨-, hd⟩ | ⟨m, hm, ⟨a, b, rest', ht, hd⟩ | ⟨hd, -⟩⟩ :=
    decode_cons_cases s.params.aluExtDecode s.fetchOpcode (bytesFrom s.mem (s.pc.toNat + 1) 2) <;>
    cases h.symm.trans hd
  obtain ⟨hop, -⟩ := decodeOpcode_some hm
  rw [← hop] at ht
  have hle := width_le_of_takeOperands (widthOf_opcode_le m) ht
  rw [Fits, Instr.width, Instr.opcodeByte, mnemonic_assemble]
  omega

/-! ## The invariant -/

/-- Flags with exactly one set are exclusive (10_state.md R30). -/
theorem exclusive_of_one {f : Flags}
    (h : f = ⟨true, false, false⟩ ∨ f = ⟨false, true, false⟩ ∨ f = ⟨false, false, true⟩) : f.exclusive := by
  rcases h with rfl | rfl | rfl <;> simp [Flags.exclusive]

theorem exec_flags_exclusive {i : Instr} {s t : State} (h : exec i s = .next t) (hs : s.flags.exclusive) :
    t.flags.exclusive := by
  by_cases hi : i.mnemonic = .CMP
  · obtain ⟨a, b, rfl⟩ := eq_cmp_of_mnemonic hi
    obtain ⟨-, hone⟩ | ⟨-, hsame⟩ := exec_cmp_flags h
    · exact exclusive_of_one hone
    · exact hsame ▸ hs
  · exact exec_flags h hi ▸ hs

theorem faultConsistent_of_cleared {s : State} (hr : s.runstate ≠ .faulted) (hf : s.fault = FaultRecord.cleared) :
    s.faultConsistent :=
  ⟨fun _ => hf, fun h => absurd h hr⟩

/-- A raise leaves a consistent record when its information is that of its code (60_exceptions.md R211, R220). -/
theorem faultConsistent_raise {c : FaultCode} {op : Byte} {n : Nat} {s : State}
    (h : FaultRecord.describes ⟨c, s.pc, op, toInfo n⟩) : (raise c op n s).faultConsistent :=
  ⟨fun hr => absurd rfl hr, fun _ => ⟨rfl, h⟩⟩

/-- The advance leaves a consistent record: off the end its information is 256, since the instruction fits. -/
theorem faultConsistent_advance {op : Byte} {u : State} (hn : nextSeq op u ≤ 256) (hr : u.runstate ≠ .faulted)
    (hf : u.fault = FaultRecord.cleared) : (advance op u).faultConsistent := by
  obtain ⟨-, h⟩ | ⟨hlt, h⟩ := advance_cases op u <;> rw [h]
  · exact faultConsistent_of_cleared hr hf
  · rw [show nextSeq op u = 256 by omega]
    exact faultConsistent_raise rfl

/-- A byte as the information of a fault record is that byte. -/
theorem toInfo_byte (b : Byte) : (toInfo b.toNat).toNat = b.toNat := by
  have hb := b.isLt
  simp only [toInfo, BitVec.toNat_ofNat]
  omega

/-- The operand an InvalidRegister fault names is above 7 (30_encoding.md R84). -/
theorem le_of_firstBadOperand {i : Instr} {b : Byte} (h : i.firstBadOperand = some b) : 8 ≤ b.toNat := by
  simpa [isRegByte] using List.find?_some h

/-- An instruction that fits leaves a core that was not Faulted with a consistent record. -/
theorem exec_faultConsistent {i : Instr} {s t : State} (h : exec i s = .next t) (hfit : Fits i s)
    (hr : s.runstate ≠ .faulted) (hf : s.fault = FaultRecord.cleared) : t.faultConsistent := by
  cases exec_cases h
  case invalidRegister b hb =>
    have hge := le_of_firstBadOperand hb
    have hlt := b.isLt
    refine faultConsistent_raise ?_
    simp only [FaultRecord.describes, toInfo_byte]
    omega
  case callReturnAddress hn =>
    rw [show nextSeq (opcode .CALL) s = 256 from Nat.le_antisymm hfit hn]
    exact faultConsistent_raise rfl
  case pushOverflow | callOverflow | retUnderflow | popUnderflow => exact faultConsistent_raise rfl
  case hlt => exact faultConsistent_of_cleared nofun hf
  case ret | call | jmp | jeqTaken | jneTaken => exact faultConsistent_of_cleared hr hf
  all_goals exact faultConsistent_advance hfit hr hf

/-- An instruction that fits keeps the invariant. -/
theorem exec_inv {i : Instr} {s t : State} (h : exec i s = .next t) (hfit : Fits i s) (hr : s.runstate ≠ .faulted)
    (hs : s.Inv) : t.Inv := by
  obtain ⟨hmem, hflags, hcleared, -⟩ := hs
  exact ⟨exec_mem_wf h hmem, exec_flags_exclusive h hflags, exec_faultConsistent h hfit hr (hcleared hr)⟩

/-- A fault of the fetch or the decoder keeps the invariant when it describes itself. -/
theorem raise_inv {c : FaultCode} {op : Byte} {n : Nat} {s : State} (hs : s.Inv)
    (h : FaultRecord.describes ⟨c, s.pc, op, toInfo n⟩) : (raise c op n s).Inv := by
  obtain ⟨hmem, hflags, -⟩ := hs
  exact ⟨hmem, hflags, faultConsistent_raise h⟩

/-- Settles O26, by the outcomes of a step. -/
theorem stepKeepsInvariant : Obligations.StepKeepsInvariant := by
  intro s t hs h
  cases step_cases h with
  | stopped => exact hs
  | illegalOpcode => exact raise_inv hs (toInfo_byte s.fetchOpcode)
  | operandPastEnd => exact raise_inv hs rfl
  | instruction hr hd hexec => exact exec_inv hexec (fits_of_decode hd) (by simp [hr]) hs

/-- Settles O27. -/
theorem resetHasInvariant : Obligations.ResetHasInvariant := fun p =>
  ⟨resetWith_mem_wf p, by simp [State.resetWith, Flags.exclusive], faultConsistent_of_cleared nofun rfl⟩

end Sys2Proof.Machine

namespace Sys2Proof.Machine

/-! ## What is stored where -/

theorem pushExecute_mem (ra : RegIdx) (s : State) :
    (pushExecute ra s).mem = s.mem.write (storeAddress s) ((decSP s).reg ra) := rfl

theorem callExecute_mem (ra : RegIdx) (s : State) :
    (callExecute ra s).mem = s.mem.write (storeAddress s) (u8 (nextSeq (opcode .CALL) s)) := rfl

/-- An instruction leaves memory alone, or it is PUSH or CALL and writes one byte, at the decremented stack pointer
(20_memory.md R61, R71). -/
theorem exec_mem {i : Instr} {s t : State} (h : exec i s = .next t) :
    t.mem = s.mem ∨ (i.mnemonic = .PUSH ∨ i.mnemonic = .CALL) ∧ ∃ v, t.mem = s.mem.write (storeAddress s) v := by
  cases exec_cases h
  case push => exact .inr ⟨.inl rfl, _, (advance_mem _ _).trans (pushExecute_mem _ s)⟩
  case call => exact .inr ⟨.inr rfl, _, callExecute_mem _ s⟩
  case pop | prn | jeqNotTaken | jneNotTaken | ldi | cmp | add | mul | sub | and | or | xor =>
    exact .inl (advance_mem _ _)
  all_goals exact .inl rfl

/-- Equal memories read alike. -/
theorem sameMem_of_eq {s t : State} (h : t.mem = s.mem) : SameMem s t := fun _ => by rw [h]

/-- One write is seen at its address only. -/
theorem sameMemBut_of_write {s t : State} {x v : Byte} (h : t.mem = s.mem.write x v) : SameMemBut x s t :=
  fun _ ha => by rw [h, Memory.read_write_of_ne s.mem v ha.symm]

/-- Settles O20. -/
theorem onlyPushAndCallStore : Obligations.OnlyPushAndCallStore := by
  intro i s t h
  obtain hmem | ⟨hi, v, hmem⟩ := exec_mem h
  · exact ⟨fun _ => sameMem_of_eq hmem, fun _ a _ => sameMem_of_eq hmem a⟩
  · exact ⟨fun hn => absurd hi (not_or.2 hn), fun _ => sameMemBut_of_write hmem⟩

/-! ## Sequences of writes -/

/-- A sequence of writes, the latest first, keeps the canonical form. -/
theorem Memory.wf_foldr_write {m : Memory} (hm : m.wf = true) (ws : List (Byte × Byte)) :
    (ws.foldr (fun w m => Memory.write m w.1 w.2) m).wf = true := by
  induction ws with
  | nil => exact hm
  | cons w ws ih => exact Memory.wf_write ih w.1 w.2

/-- After a sequence of writes, the latest first, a read returns the first of them to its address, and without one the
byte that stood there. -/
theorem Memory.read_foldr_write {m : Memory} (hm : m.wf = true) (ws : List (Byte × Byte)) (a : Byte) :
    (ws.foldr (fun w m => Memory.write m w.1 w.2) m).read a =
      ((ws.find? (fun w => w.1 == a)).map Prod.snd).getD (m.read a) := by
  induction ws with
  | nil => rfl
  | cons w ws ih =>
    rw [List.foldr_cons, Memory.read_write (Memory.wf_foldr_write hm ws), ih]
    by_cases hw : w.1 = a <;> simp [hw]

/-- Settles O52: reset memory is canonical and reads as 0x00 throughout. -/
theorem readReturnsLastWrite : Obligations.ReadReturnsLastWrite := by
  intro ws a
  have hread := Memory.read_foldr_write (resetWith_mem_wf Params.default) ws.reverse a
  rw [List.foldr_reverse] at hread
  refine hread.trans ?_
  cases ws.reverse.find? (fun w => w.1 == a) <;> rfl

/-! ## A store over the next instruction -/

/-- The stack does not overflow while the stack pointer is above 0, checked or not (60_exceptions.md R216). -/
theorem stackWouldOverflow_of_pos {s : State} (h : 0 < (s.reg SP).toNat) : s.stackWouldOverflow = false := by
  have hne : s.reg SP ≠ 0#8 := fun e => by simp [e] at h
  simp [State.stackWouldOverflow, hne]

/-- Above 0 the store address is the byte below the stack pointer, without a wrap. -/
theorem storeAddress_toNat_of_pos {s : State} (h : 0 < (s.reg SP).toNat) :
    (storeAddress s).toNat = (s.reg SP).toNat - 1 := by
  have hlt := (s.reg SP).isLt
  rw [storeAddress, decSP_reg_SP, u8_toNat]
  omega

/-- PUSH of a register other than the stack pointer leaves its value at the store address (42_stack.md R140). -/
theorem pushExecute_read_storeAddress {ra : RegIdx} {s : State} (hra : ra ≠ SP) (hwf : s.mem.wf = true) :
    (pushExecute ra s).mem.read (storeAddress s) = s.reg ra := by
  rw [pushExecute_mem, Memory.read_write hwf, if_pos rfl, decSP_reg_of_ne s hra]

/-- Settles O54: with the stack pointer three above `pc`, the store address is the successor of the PUSH. -/
theorem storedByteIsFetchedNext : Obligations.StoredByteIsFetchedNext := by
  intro a ra s ha hra hwf hpc hsp
  have hpos : 0 < (s.reg SP).toNat := by omega
  have hexec := exec_of_outcome (.push ha (stackWouldOverflow_of_pos hpos))
  obtain ⟨hadvance, -⟩ := endsSequentially_advance (opcode .PUSH) s (pushExecute ra s) rfl rfl rfl
  rw [show widthOf (opcode .PUSH) = 2 from widthOf_opcode .PUSH] at hadvance
  obtain ⟨hnext, -, -⟩ := hadvance (by omega)
  refine ⟨_, hexec, hnext, ?_⟩
  have hstore := storeAddress_toNat_of_pos hpos
  have hat : (advance (opcode .PUSH) (pushExecute ra s)).pc = storeAddress s := by
    apply BitVec.eq_of_toNat_eq
    omega
  rw [State.fetchOpcode, hat, advance_mem, pushExecute_read_storeAddress hra hwf]

end Sys2Proof.Machine

namespace Sys2Proof.Machine

/-! ## The operand bytes

Each direction of the round trip needs one fact about the operand fetch; the opcode byte is the map's matter. -/

/-- The operand fetch of an instruction takes its operand bytes, which assemble to it, and leaves the bytes after them
(30_encoding.md R81). -/
theorem takeOperands_operands (i : Instr) (rest : List Byte) :
    ∃ a b, takeOperands i.width (i.operands ++ rest) = .ok (a, b, rest) ∧ i.mnemonic.assemble a b = i := by
  rw [Instr.width, Instr.opcodeByte, widthOf_opcode]
  cases i <;> exact ⟨_, _, rfl, rfl⟩

/-- The operands of an assembled instruction are as many of the two bytes as its width has room for
(30_encoding.md R80, R82). -/
theorem operands_assemble (m : Mnemonic) (a b : Byte) :
    (m.assemble a b).operands = [a, b].take (widthOf (opcode m) - 1) := by
  cases m <;> rfl

/-- The operand fetch drops no byte: what it takes and what it leaves are the bytes it was given. -/
theorem eq_append_of_takeOperands {w : Nat} {bytes rest : List Byte} {a b : Byte} (hw : w ≤ 3)
    (h : takeOperands w bytes = .ok (a, b, rest)) : bytes = [a, b].take (w - 1) ++ rest := by
  match w, bytes with
  | 0, _ | 1, _ | 2, _ :: _ | 3, _ :: _ :: _ => cases h; rfl
  | 2, [] | 3, [] | 3, [_] => cases h
  | _ + 4, _ => omega

/-! ## The round trip -/

/-- Settles O2: the operand fetch after a legal opcode gives the operands back. -/
theorem decodeEncodeRoundTrip : Obligations.DecodeEncodeRoundTrip := by
  intro ext i rest hi
  obtain ⟨a, b, htake, hasm⟩ := takeOperands_operands i rest
  have hdecode := decode_of_legal (List.contains_iff_mem.mp hi) htake
  rwa [hasm] at hdecode

/-- Settles O3: the opcode byte found and the operand bytes taken are those of the assembled instruction. -/
theorem decodeReadsOnlyEncodings : Obligations.DecodeReadsOnlyEncodings := by
  intro ext bytes i rest h
  cases bytes with
  | nil => cases h
  | cons op tail =>
    obtain ⟨-, hd⟩ | ⟨m, hm, ⟨a, b, rest', htake, hd⟩ | ⟨hd, -⟩⟩ := decode_cons_cases ext op tail <;>
      cases h.symm.trans hd
    obtain ⟨rfl, hlegal⟩ := decodeOpcode_some hm
    have htail := eq_append_of_takeOperands (widthOf_opcode_le m) htake
    rw [encode, Instr.opcodeByte, Instr.decodesUnder, operands_assemble, mnemonic_assemble, List.cons_append, ← htail]
    exact ⟨rfl, List.contains_iff_mem.mpr hlegal⟩

/-! ## The opcode map -/

/-- Settles O1: the decoder computes each word. -/
theorem specWordsDecode : Obligations.SpecWordsDecode :=
  ⟨rfl, rfl, rfl, rfl, rfl, rfl, rfl, rfl, rfl, rfl, rfl, rfl, rfl, rfl, rfl, rfl, rfl⟩

/-- The legal opcodes are the opcode bytes of the legal instructions. -/
theorem decodeOpcode_isSome_iff {ext : Bool} {op : Byte} :
    (decodeOpcode ext op).isSome = true ↔ op ∈ (legalMnemonics ext).map opcode := by
  simp [decodeOpcode]

/-- Settles O4: the two lists of bytes are the table's images of the base and the extension instructions. -/
theorem legalOpcodesExactly : Obligations.LegalOpcodesExactly := by
  intro ext op
  change _ ↔ op ∈ baseMnemonics.map opcode ∨ (ext = true ∧ op ∈ extMnemonics.map opcode)
  rw [decodeOpcode_isSome_iff]
  cases ext <;> simp [legalMnemonics]

/-- The width an opcode byte encodes, as arithmetic on its value (30_encoding.md R82). -/
theorem widthOf_eq_div (op : Byte) : widthOf op = op.toNat / 64 + 1 := by
  rw [widthOf, BitVec.toNat_ushiftRight, Nat.shiftRight_eq_div_pow]

/-- Settles O5: the width the opcode byte encodes is that of the format, at most three. -/
theorem opcodeTopBitsGiveWidth : Obligations.OpcodeTopBitsGiveWidth := by
  intro ext op m hm
  obtain ⟨rfl, -⟩ := decodeOpcode_some hm
  have hle := widthOf_opcode_le m
  rw [← widthOf_eq_div, widthOf_opcode]
  rw [widthOf_eq_div] at hle
  refine ⟨by omega, ?_⟩
  cases m <;> decide

end Sys2Proof.Machine

namespace Sys2Proof.Machine

/-! ## Fetch and decode -/

/-- Settles O6. -/
theorem stepRunsDecodedInstruction : Obligations.StepRunsDecodedInstruction := by
  intro s i rest hr hd
  rw [step_of_running hr, cycle, hd]

/-- Byte `k` of a fetch is the byte of memory `k` above its address (20_memory.md R63). -/
theorem bytesFrom_getElem (m : Memory) (a n k : Nat) (hk : k < (bytesFrom m a n).length) :
    (bytesFrom m a n)[k] = m.read (u8 (a + k)) := by
  induction n generalizing a k with
  | zero => cases hk
  | succ n ih =>
    by_cases ha : a < 256
    · cases k with
      | zero => simp only [bytesFrom_succ_of_lt ha, List.getElem_cons_zero, Nat.add_zero]
      | succ k =>
        simp only [bytesFrom_succ_of_lt ha, List.getElem_cons_succ, ih]
        rw [Nat.add_right_comm, Nat.add_assoc]
    · simp [bytesFrom, ha] at hk

/-- The bytes of an instruction are as many as its width (30_encoding.md R82). -/
theorem encode_length (i : Instr) : (encode i).length = i.width := by
  rw [Instr.width, Instr.opcodeByte, widthOf_opcode]
  cases i <;> rfl

/-- The fetch offers the decoder the encoding of an instruction exactly when memory holds it from `pc`
(30_encoding.md R81; 40_execution_cycle.md R101, R104). -/
theorem encode_prefix_fetchBytes_iff {i : Instr} {s : State} :
    encode i <+: s.fetchBytes ↔
      Fits i s ∧ ∀ (k : Nat) (hk : k < (encode i).length), s.mem.read (u8 (s.pc.toNat + k)) = (encode i)[k] := by
  have hpc := s.pc.isLt
  have hwidth : i.width ≤ 3 := widthOf_opcode_le i.mnemonic
  have hfit : (encode i).length ≤ (bytesFrom s.mem s.pc.toNat maxWidth).length ↔ Fits i s := by
    rw [encode_length, bytesFrom_length _ _ _ hpc.le, Fits, maxWidth]
    omega
  simp only [List.prefix_iff_getElem, exists_prop, hfit, State.fetchBytes, bytesFrom_getElem, eq_comm]

/-- Settles O7: what the fetch offers begins with the encoding, which decodes to the instruction. -/
theorem stepRunsInstructionInMemory : Obligations.StepRunsInstructionInMemory := by
  intro s i hr hlegal hfit hbytes
  rw [encode_length] at hfit
  obtain ⟨rest, hfetch⟩ := encode_prefix_fetchBytes_iff.mpr ⟨hfit, hbytes⟩
  have hdecode := decodeEncodeRoundTrip _ i rest hlegal
  rw [hfetch] at hdecode
  exact stepRunsDecodedInstruction s i rest hr hdecode

/-- The operands of a decoded instruction are the bytes after its opcode, one less than its width
(40_execution_cycle.md R104). -/
theorem operands_of_decode {s : State} {i : Instr} {rest : List Byte}
    (h : decode s.params.aluExtDecode s.fetchBytes = .ok (i, rest)) :
    i.operands = (List.range (i.width - 1)).map fun k => s.mem.read (u8 (s.pc.toNat + (k + 1))) := by
  obtain ⟨hfetch, -⟩ := decodeReadsOnlyEncodings _ _ _ _ h
  obtain ⟨-, hbytes⟩ := encode_prefix_fetchBytes_iff.mp (hfetch ▸ List.prefix_append _ _)
  have hlen : i.operands.length + 1 = i.width := encode_length i
  refine List.ext_getElem (by simp [← hlen]) fun k hk _ => ?_
  rw [List.getElem_map, List.getElem_range, hbytes (k + 1) (Nat.succ_lt_succ hk)]
  rfl

/-- Settles O8: a legal opcode whose operand bytes lie in memory decodes, and the operands follow it. -/
theorem operandsAreTheBytesAfterTheOpcode : Obligations.OperandsAreTheBytesAfterTheOpcode := by
  intro s m hr hm hfit
  obtain ⟨hnone, -⟩ | ⟨m', hm', ⟨-, a, b, rest, hd, -⟩ | ⟨hpast, -⟩⟩ := cycle_cases s
  · cases hm.symm.trans hnone
  · cases hm.symm.trans hm'
    have hops := operands_of_decode hd
    rw [Instr.width, Instr.opcodeByte, mnemonic_assemble, (decodeOpcode_some hm).1] at hops
    refine ⟨_, stepRunsDecodedInstruction s _ rest hr hd, mnemonic_assemble m a b, ?_, ?_, ?_⟩ <;>
      (intro hw; rw [hops, hw]; rfl)
  · exact absurd hfit (Nat.not_le.2 hpast)

/-- Settles O9: the step's outcome for an opcode outside the map is that fault. -/
theorem illegalOpcodeFaults : Obligations.IllegalOpcodeFaults := by
  intro s hr hop
  have hlt := (s.mem.read s.pc).isLt
  exact ⟨_, step_of_outcome (.illegalOpcode hr hop), raised_raise _ _ s (by omega)⟩

/-- Settles O10: the step's outcome for an operand byte past 255 is that fault. -/
theorem operandPastEndFaults : Obligations.OperandPastEndFaults := fun s _ hr hm hpast =>
  ⟨_, step_of_outcome (.operandPastEnd hr hm hpast), raised_raise _ _ s (by decide)⟩

/-! ## The instruction -/

/-- Settles O11: the operand check is the first thing each instruction does. -/
theorem invalidRegisterFaults : Obligations.InvalidRegisterFaults := by
  intro i s b hb
  have hlt := b.isLt
  exact ⟨_, exec_of_bad hb, raised_raise _ _ s (by omega)⟩

/-- The execute phase of an instruction that ends in the sequential advance: it leaves one state `u` for the advance,
wherever the instruction stands, and with it the run state and the fault record (40_execution_cycle.md R108). -/
theorem exec_of_endsInAdvance {i : Instr} {s : State} (h : EndsInAdvance i s) :
    ∃ u, u.runstate = s.runstate ∧ u.fault = s.fault ∧
      ∀ p, exec i (jumpTo p s) = .next (advance i.opcodeByte (jumpTo p u)) := by
  obtain ⟨hwf, hstack, htransfer, hhlt⟩ := h
  obtain ⟨t, -, ho⟩ := exec_outcome i s
  cases ho with
  | invalidRegister hb => cases (wellFormed_iff_no_bad.1 hwf).symm.trans hb
  | hlt => exact absurd rfl hhlt
  | retUnderflow | ret | callReturnAddress | callOverflow | call | jmp => cases htransfer
  | jeqTaken _ he => cases htransfer.symm.trans he
  | jneTaken _ he => simp [instrTransfers, he] at htransfer
  | pushOverflow _ hov => cases hstack.symm.trans hov
  | popUnderflow ha hun => cases hstack.symm.trans ((instrStackFaults_pop s ha).trans hun)
  | @push _ _ ra ha hov => exact ⟨pushExecute ra s, rfl, rfl, fun _ => exec_of_outcome (.push ha hov)⟩
  | @pop _ _ ra ha hun => exact ⟨popExecute ra s, rfl, rfl, fun _ => exec_of_outcome (.pop ha hun)⟩
  | @prn _ _ ra ha => exact ⟨emit (s.reg ra) s, rfl, rfl, fun _ => exec_of_outcome (.prn ha)⟩
  | jeqNotTaken ha he => exact ⟨s, rfl, rfl, fun _ => exec_of_outcome (.jeqNotTaken ha he)⟩
  | jneNotTaken ha he => exact ⟨s, rfl, rfl, fun _ => exec_of_outcome (.jneNotTaken ha he)⟩
  | @ldi _ imm _ ra ha => exact ⟨s.writeReg ra imm, rfl, rfl, fun _ => exec_of_outcome (.ldi ha)⟩
  | @cmp _ _ _ ra rb ha hb =>
    exact ⟨s.writeFlags (compareFlags (s.reg ra) (s.reg rb)), rfl, rfl, fun _ => exec_of_outcome (.cmp ha hb)⟩
  | @add _ _ _ ra rb ha hb =>
    exact ⟨s.writeReg ra (u8 ((s.reg ra).toNat + (s.reg rb).toNat)), rfl, rfl,
      fun _ => exec_of_outcome (.add ha hb)⟩
  | @mul _ _ _ ra rb ha hb =>
    exact ⟨s.writeReg ra (u8 ((s.reg ra).toNat * (s.reg rb).toNat)), rfl, rfl,
      fun _ => exec_of_outcome (.mul ha hb)⟩
  | @sub _ _ _ ra rb ha hb =>
    exact ⟨s.writeReg ra (u8 ((s.reg ra).toNat + 256 - (s.reg rb).toNat)), rfl, rfl,
      fun _ => exec_of_outcome (.sub ha hb)⟩
  | @and _ _ _ ra rb ha hb =>
    exact ⟨s.writeReg ra (s.reg ra &&& s.reg rb), rfl, rfl, fun _ => exec_of_outcome (.and ha hb)⟩
  | @or _ _ _ ra rb ha hb =>
    exact ⟨s.writeReg ra (s.reg ra ||| s.reg rb), rfl, rfl, fun _ => exec_of_outcome (.or ha hb)⟩
  | @xor _ _ _ ra rb ha hb =>
    exact ⟨s.writeReg ra (s.reg ra ^^^ s.reg rb), rfl, rfl, fun _ => exec_of_outcome (.xor ha hb)⟩

/-- Settles O13: the execute phase leaves `pc` and the run state for the advance. -/
theorem sequentialAdvance : Obligations.SequentialAdvance := by
  intro i s hr h hle
  obtain ⟨u, hrun, hfault, hexec⟩ := exec_of_endsInAdvance h
  obtain ⟨hadvance, -⟩ := endsSequentially_advance i.opcodeByte s (jumpTo s.pc u) rfl hrun hfault
  obtain ⟨hpc, hrunstate, -⟩ := hadvance hle
  exact ⟨_, hexec s.pc, hpc, hrunstate.trans hr⟩

/-- The advances of one state from two addresses differ at most in `pc`, the run state and the fault record. -/
theorem advance_jumpTo_frame (op p q : Byte) (u : State) :
    advance op (jumpTo p u) =
      { advance op (jumpTo q u) with
        pc := (advance op (jumpTo p u)).pc
        runstate := (advance op (jumpTo p u)).runstate
        fault := (advance op (jumpTo p u)).fault } := by
  obtain ⟨-, hp⟩ | ⟨-, hp⟩ := advance_cases op (jumpTo p u) <;>
    obtain ⟨-, hq⟩ | ⟨-, hq⟩ := advance_cases op (jumpTo q u) <;> rw [hp, hq] <;> rfl

/-- Settles O14: at `pc` and at 0 the execute phase leaves the same state for the advance. -/
theorem offTheEndKeepsEffects : Obligations.OffTheEndKeepsEffects := by
  intro i s h hend
  obtain ⟨u, hrun, hfault, hexec⟩ := exec_of_endsInAdvance h
  obtain ⟨-, hadvance⟩ := endsSequentially_advance i.opcodeByte s (jumpTo s.pc u) rfl hrun hfault
  obtain ⟨hpc, hrunstate, hcode, hfaultPc, hop, hinfo⟩ := hadvance hend
  refine ⟨_, _, hexec s.pc, hexec 0, hrunstate, hcode, hfaultPc, hop, hinfo, ?_⟩
  exact (advance_jumpTo_frame i.opcodeByte s.pc 0 u).trans (by rw [hpc, hrunstate])

/-! ## How a step ends -/

/-- An instruction keeps the run state, halts or faults. -/
theorem exec_runstate {i : Instr} {s t : State} (h : exec i s = .next t) :
    t.runstate = s.runstate ∨ t.runstate = .halted ∨ t.runstate = .faulted := by
  obtain ⟨-, u, rfl, -, hrun⟩ | ⟨c, n, rfl⟩ | hsame | hhalted := exec_ends h
  · obtain ⟨-, hadv⟩ | ⟨-, hadv⟩ := advance_cases i.opcodeByte u
    · exact .inl (hadv ▸ hrun)
    · exact .inr (.inr (hadv ▸ rfl))
  · exact .inr (.inr rfl)
  · exact .inl hsame
  · exact .inr (.inl hhalted)

/-- Settles O15, by the three answers of a cycle: two faults and an instruction. -/
theorem stepEndsRunningHaltedOrFaulted : Obligations.StepEndsRunningHaltedOrFaulted := by
  intro s hr
  rw [step_of_running hr]
  obtain ⟨-, hc⟩ | ⟨m, -, ⟨-, a, b, rest, -, hc⟩ | ⟨-, hc⟩⟩ := cycle_cases s
  · exact ⟨_, hc, .inr (.inr rfl)⟩
  · obtain ⟨t, hexec, -⟩ := exec_outcome (m.assemble a b) s
    have hend := exec_runstate hexec
    rw [hr] at hend
    exact ⟨t, hc.trans hexec, hend⟩
  · exact ⟨_, hc, .inr (.inr rfl)⟩

/-- Settles O12, by induction on the number of steps. -/
theorem stoppedCoreExecutesNothing : Obligations.StoppedCoreExecutesNothing := by
  intro s n h
  have hs : s.stopped := by rcases h with h | h | h <;> simp [State.stopped, h]
  induction n with
  | zero => rfl
  | succ n ih =>
    rw [runSteps, step_of_stopped hs]
    exact ih

end Sys2Proof.Machine

namespace Sys2Proof.Machine

/-! ## Data movement and output -/

/-- All that an instruction changes whose execute phase writes one register: that register, and what the sequential
end changes (10_state.md R24; 40_execution_cycle.md R110, R111). -/
theorem advance_writeReg_frame (op : Byte) (ra : RegIdx) (v : Byte) (s : State) :
    let t := advance op (s.writeReg ra v)
    t.reg ra = v ∧ SameRegsBut [ra] s t ∧ SameMem s t ∧ SameFlags s t ∧ SameOut s t ∧
      EndsSequentially op (widthOf op) s t := by
  have hregs : SameRegsBut [ra] s (advance op (s.writeReg ra v)) := fun r hr =>
    (advance_reg op _ r).trans (State.reg_writeReg_of_ne s v (Ne.symm (mt List.mem_singleton.2 hr)))
  exact ⟨(advance_reg op _ ra).trans (State.reg_writeReg_same s ra v), hregs, sameMem_of_eq (advance_mem op _),
    ⟨advance_flags op _, advance_params op _⟩, ⟨advance_out op _, advance_params op _⟩,
    endsSequentially_advance op s _ rfl rfl rfl⟩

/-- Settles O29: the execute phase of LDI is the one register write. -/
theorem ldiLoadsImmediate : Obligations.LdiLoadsImmediate := fun _ imm ra s ha _ =>
  ⟨_, exec_of_outcome (.ldi ha), advance_writeReg_frame (opcode .LDI) ra imm s⟩

/-- Settles O30: the execute phase of PRN is the one output, which the advance keeps with all else. -/
theorem prnEmitsRegister : Obligations.PrnEmitsRegister := fun _ _ s ha _ =>
  ⟨_, exec_of_outcome (.prn ha), advance_out _ _, advance_reg _ _, sameMem_of_eq (advance_mem _ _),
    ⟨advance_flags _ _, advance_params _ _⟩, endsSequentially_advance (opcode .PRN) s _ rfl rfl rfl⟩

end Sys2Proof.Machine

namespace Sys2Proof.Machine

/-! ## The stack checks and the store address -/

/-- The overflow check passes exactly when it is off or there is room below the stack pointer (60_exceptions.md R216). -/
theorem stackWouldOverflow_eq_false_iff {s : State} :
    s.stackWouldOverflow = false ↔ (s.params.stackBoundCheck = true → s.reg SP ≠ 0) := by
  simp [State.stackWouldOverflow]

/-- The underflow check passes exactly when it is off or there is room above the value (60_exceptions.md R217). -/
theorem stackWouldUnderflow_eq_false_iff {s : State} {sp : Byte} :
    s.stackWouldUnderflow sp = false ↔ (s.params.stackBoundCheck = true → sp ≠ 255) := by
  simp [State.stackWouldUnderflow]

/-- The decrement of the stack pointer, 0 wrapping to 255 (42_stack.md R140). -/
theorem storeAddress_toNat (s : State) : (storeAddress s).toNat = ((s.reg SP).toNat + 255) % 256 := by
  rw [storeAddress, decSP_reg_SP, u8_toNat]
  omega

/-- Only the wrap from 0 reaches the last address. -/
theorem storeAddress_ne_255 {s : State} (h : s.reg SP ≠ 0) : storeAddress s ≠ 255 := by
  have hdec := storeAddress_toNat s
  bv_omega

/-- An instruction that would overflow the stack stores nothing (60_exceptions.md R216). -/
theorem exec_mem_of_overflow {i : Instr} {s t : State} (h : exec i s = .next t) (ho : s.stackWouldOverflow = true) :
    t.mem = s.mem := by
  cases exec_cases h
  case push hno | call hno => exact absurd ho (by simp [hno])
  case pop | prn | jeqNotTaken | jneNotTaken | ldi | cmp | add | mul | sub | and | or | xor =>
    exact advance_mem _ _
  all_goals rfl

/-- Settles O25: the store address is 255 only at the stack pointer 0, where the check lets nothing be stored. -/
theorem checkedStackNeverStoresAtTop : Obligations.CheckedStackNeverStoresAtTop := by
  intro i s t hcheck h
  cases ho : s.stackWouldOverflow with
  | true => rw [exec_mem_of_overflow h ho]
  | false =>
    have hsp := stackWouldOverflow_eq_false_iff.1 ho hcheck
    obtain hmem | ⟨-, v, hmem⟩ := exec_mem h
    · rw [hmem]
    · rw [hmem, Memory.read_write_of_ne s.mem v (storeAddress_ne_255 hsp)]

/-! ## PUSH and POP -/

/-- An execute phase that writes registers and memory alone leaves the rest to the sequential end
(40_execution_cycle.md R110, R111). -/
theorem advance_frame (op : Byte) {s u : State} (hpc : u.pc = s.pc) (hrs : u.runstate = s.runstate)
    (hf : u.fault = s.fault) (hfl : u.flags = s.flags) (ho : u.out = s.out) (hp : u.params = s.params) :
    SameFlags s (advance op u) ∧ SameOut s (advance op u) ∧ EndsSequentially op (widthOf op) s (advance op u) := by
  have hparams : (advance op u).params = s.params := (advance_params op u).trans hp
  exact ⟨⟨(advance_flags op u).trans hfl, hparams⟩, ⟨(advance_out op u).trans ho, hparams⟩,
    endsSequentially_advance op s u hpc hrs hf⟩

theorem pushExecute_reg_SP (ra : RegIdx) (s : State) : (pushExecute ra s).reg SP = storeAddress s := rfl

/-- The byte PUSH stores: of the stack pointer the decremented value (42_stack.md R140; 92_eei_decisions.md D9). -/
theorem decSP_reg (ra : RegIdx) (s : State) :
    (decSP s).reg ra = if ra = SP then storeAddress s else s.reg ra := by
  split
  · next h => rw [h, storeAddress]
  · next h => exact decSP_reg_of_ne s h

/-- Settles O38: one write at the store address, of the named register as the decrement leaves it. -/
theorem pushStoresRegister : Obligations.PushStoresRegister := by
  intro a ra s ha _ hwf hcheck
  have hexec := exec_of_outcome (.push ha (stackWouldOverflow_eq_false_iff.2 hcheck))
  have hsp : (advance (opcode .PUSH) (pushExecute ra s)).reg SP = storeAddress s :=
    (advance_reg _ _ SP).trans (pushExecute_reg_SP ra s)
  have hmem : (advance (opcode .PUSH) (pushExecute ra s)).mem = s.mem.write (storeAddress s) ((decSP s).reg ra) :=
    (advance_mem _ _).trans (pushExecute_mem ra s)
  refine ⟨_, hexec, ?_, hsp, fun r hr => ?_, ?_, sameMemBut_of_write hmem, advance_frame _ rfl rfl rfl rfl rfl rfl⟩
  · rw [hsp, storeAddress_toNat]
  · exact (advance_reg _ _ r).trans (pushExecute_reg_of_ne ra s (mt List.mem_singleton.2 hr))
  · rw [hmem, Memory.read_write hwf, if_pos rfl, decSP_reg, hsp]

theorem popIncrementBase_of_ne {ra : RegIdx} (s : State) (h : ra ≠ SP) : popIncrementBase ra s = s.reg SP := if_neg h

theorem popIncrementBase_SP (s : State) : popIncrementBase SP s = s.mem.read (s.reg SP) := if_pos rfl

theorem popExecute_reg_SP (ra : RegIdx) (s : State) :
    (popExecute ra s).reg SP = u8 ((popIncrementBase ra s).toNat + 1) := State.reg_writeReg_same _ _ _

/-- POP leaves the popped byte in a register that the increment does not overwrite (42_stack.md R141). -/
theorem popExecute_reg_of_ne_SP {ra : RegIdx} (s : State) (h : ra ≠ SP) :
    (popExecute ra s).reg ra = s.mem.read (s.reg SP) := by
  rw [popExecute, State.reg_writeReg_of_ne _ _ h.symm, State.reg_writeReg_same, State.loadAtSP]

/-- What every POP past its check does, whichever register it names: the increment, and its frame (42_stack.md R141). -/
theorem advance_popExecute_frame (ra : RegIdx) (s : State) :
    let t := advance (opcode .POP) (popExecute ra s)
    (t.reg SP).toNat = ((popIncrementBase ra s).toNat + 1) % 256 ∧ SameRegsBut [ra, SP] s t ∧ SameMem s t ∧
      SameFlags s t ∧ SameOut s t ∧ EndsSequentially (opcode .POP) 2 s t := by
  refine ⟨?_, fun r hr => ?_, sameMem_of_eq (advance_mem _ _), advance_frame _ rfl rfl rfl rfl rfl rfl⟩
  · rw [advance_reg, popExecute_reg_SP, u8_toNat]
  · obtain ⟨hra, hsp⟩ := not_or.1 (mt List.mem_pair.2 hr)
    exact (advance_reg _ _ r).trans (popExecute_reg_of_ne s hra hsp)

/-- Settles O39: the increment applies to the stack pointer and leaves the named register alone. -/
theorem popLoadsRegister : Obligations.PopLoadsRegister := by
  intro a ra s ha hra _ hcheck
  have hbase := popIncrementBase_of_ne s hra
  have hexec := exec_of_outcome (.pop ha (stackWouldUnderflow_eq_false_iff.2 (hbase ▸ hcheck)))
  exact ⟨_, hexec, (advance_reg _ _ ra).trans (popExecute_reg_of_ne_SP s hra), hbase ▸ advance_popExecute_frame ra s⟩

/-- Settles O40: the increment applies to the popped byte. -/
theorem popStackPointer : Obligations.PopStackPointer := by
  intro a s ha _ hcheck
  have hbase := popIncrementBase_SP s
  have hexec := exec_of_outcome (.pop (ra := SP) ha (stackWouldUnderflow_eq_false_iff.2 (hbase ▸ hcheck)))
  obtain ⟨hsp, hregs, hframe⟩ := advance_popExecute_frame SP s
  exact ⟨_, hexec, hbase ▸ hsp, fun r hr => hregs r (by simpa using hr), hframe⟩

/-- An instruction of two bytes fits up to address 254 (40_execution_cycle.md R102). -/
theorem fits_of_two_bytes {i : Instr} {s : State} (hi : (encode i).length = 2) (hpc : s.pc.toNat ≤ 254) : Fits i s := by
  rw [Fits, ← encode_length, hi]
  omega

/-- Settles O43: the POP reads where the PUSH stored, and its increment undoes the decrement, which under the check did
not wrap. -/
theorem pushPopRoundTrip : Obligations.PushPopRoundTrip := by
  intro a b ri rj s ha hb hri hrj hwf hpc hcheck
  obtain ⟨t, hpush, htsp, hat, -, hstored, -, ⟨-, hparams⟩, -, hend, -⟩ :=
    pushStoresRegister a ri s ha (fits_of_two_bytes rfl (by omega)) hwf hcheck
  obtain ⟨htpc, -, -⟩ := hend (by omega)
  have hpopCheck : t.params.stackBoundCheck = true → t.reg SP ≠ 255 := fun hc =>
    hat ▸ storeAddress_ne_255 (hcheck (hparams ▸ hc))
  obtain ⟨u, hpop, hloaded, husp, -⟩ :=
    popLoadsRegister b rj t hb hrj (fits_of_two_bytes rfl (by omega)) hpopCheck
  refine ⟨t, u, hpush, htpc, hpop, ?_, BitVec.eq_of_toNat_eq ?_⟩
  · rw [hloaded, hat, hstored, if_neg hri]
  · have hlt := (s.reg SP).isLt
    omega

end Sys2Proof.Machine

namespace Sys2Proof.Machine

/-! ## Control transfer -/

/-- All that a control transfer changes: `pc` (40_execution_cycle.md R112; 43_control.md R150). -/
theorem jumpTo_frame (target : Byte) (s : State) :
    let t := jumpTo target s
    SameRegs s t ∧ SameMem s t ∧ SameFlags s t ∧ SameOut s t ∧ EndsAt target s t :=
  ⟨jumpTo_reg target s, sameMem_of_eq (jumpTo_mem target s), ⟨jumpTo_flags target s, jumpTo_params target s⟩,
    ⟨jumpTo_out target s, jumpTo_params target s⟩, jumpTo_pc target s, jumpTo_runstate target s, jumpTo_fault target s⟩

/-- Settles O47. -/
theorem jmpSetsProgramCounter : Obligations.JmpSetsProgramCounter := fun _ ra s ha =>
  ⟨_, exec_of_outcome (.jmp ha), jumpTo_frame (s.reg ra) s⟩

/-- A conditional jump whose operand names a register: the transfer or the advance, and no other effect
(43_control.md R154, R155). -/
theorem jumpIf_of_operand (op : Byte) (taken : Bool) {a : Byte} {ra : RegIdx} (s : State) (ha : a.toNat = ra.val) :
    ∃ t, jumpIf op taken a s = .next t ∧ SameRegs s t ∧ SameMem s t ∧ SameFlags s t ∧ SameOut s t ∧
      (taken = true → EndsAt (s.reg ra) s t) ∧ (taken = false → EndsSequentially op (widthOf op) s t) := by
  rw [jumpIf, withReg_of_some (regIndex_of_eq ha)]
  cases taken with
  | true =>
    obtain ⟨hregs, hmem, hflags, hout, hend⟩ := jumpTo_frame (s.reg ra) s
    exact ⟨_, rfl, hregs, hmem, hflags, hout, fun _ => hend, nofun⟩
  | false =>
    obtain ⟨hflags, hout, hend⟩ := advance_frame op (s := s) (u := s) rfl rfl rfl rfl rfl rfl
    exact ⟨_, rfl, advance_reg op s, sameMem_of_eq (advance_mem op s), hflags, hout, nofun, fun _ => hend⟩

/-- Settles O48: JEQ is the conditional jump on Equal. -/
theorem jeqJumpsIfEqual : Obligations.JeqJumpsIfEqual := fun _ _ s ha _ =>
  jumpIf_of_operand (opcode .JEQ) s.flags.e s ha

/-- Settles O49: JNE is the conditional jump on the complement of Equal. -/
theorem jneJumpsIfNotEqual : Obligations.JneJumpsIfNotEqual := by
  intro a ra s ha _
  have hjump := jumpIf_of_operand (opcode .JNE) (!s.flags.e) s ha
  simp only [Bool.not_eq_true', Bool.not_eq_false'] at hjump
  exact hjump

/-! ## CALL and RET -/

/-- The return address, untruncated (43_control.md R151). -/
theorem nextSeq_call (s : State) : nextSeq (opcode .CALL) s = s.pc.toNat + 2 := rfl

theorem callExecute_reg_SP (ra : RegIdx) (s : State) : (callExecute ra s).reg SP = storeAddress s := rfl

theorem callExecute_pc (ra : RegIdx) (s : State) : (callExecute ra s).pc = (decSP s).reg ra := rfl

theorem retExecute_reg_SP (s : State) : (retExecute s).reg SP = u8 ((s.reg SP).toNat + 1) :=
  State.reg_writeReg_same s SP _

/-- Settles O45: the return address is 256, and its check comes first. -/
theorem callReturnAddressFaults : Obligations.CallReturnAddressFaults := by
  intro a s ha hpc
  have hnext : nextSeq (opcode .CALL) s = 256 := by rw [nextSeq_call, hpc]
  have hexec := exec_of_outcome (.callReturnAddress (s := s) ha (by omega))
  rw [hnext] at hexec
  exact ⟨_, hexec, raised_raise _ _ s (by decide)⟩

/-- Settles O44: one write at the store address, of the return address, and a jump to the named register as the
decrement leaves it. -/
theorem callPushesReturnAddress : Obligations.CallPushesReturnAddress := by
  intro a ra s ha hpc hwf hcheck
  have hnext := nextSeq_call s
  have hexec := exec_of_outcome (.call ha (by omega) (stackWouldOverflow_eq_false_iff.2 hcheck))
  have hsp := callExecute_reg_SP ra s
  have hmem := callExecute_mem ra s
  refine ⟨_, hexec, ?_, hsp, fun r hr => ?_, ?_, sameMemBut_of_write hmem, ⟨rfl, rfl⟩, ⟨rfl, rfl⟩, ?_, rfl, rfl⟩
  · rw [hsp, storeAddress_toNat]
  · exact callExecute_reg_of_ne ra s (mt List.mem_singleton.2 hr)
  · rw [hmem, Memory.read_write hwf, if_pos rfl, u8_toNat, hnext]
    omega
  · rw [callExecute_pc, decSP_reg, hsp]

/-- Settles O46: the increment of the stack pointer, and a jump to the byte it pointed at. -/
theorem retPopsProgramCounter : Obligations.RetPopsProgramCounter := by
  intro s hcheck
  refine ⟨_, exec_of_outcome (.ret (stackWouldUnderflow_eq_false_iff.2 hcheck)), ?_, fun r hr => ?_,
    sameMem_of_eq rfl, ⟨rfl, rfl⟩, ⟨rfl, rfl⟩, rfl, rfl, rfl⟩
  · rw [retExecute_reg_SP, u8_toNat]
  · exact retExecute_reg_of_ne s (mt List.mem_singleton.2 hr)

/-! ## Call and return -/

/-- The decoder knows a base instruction under both values of `ALU_EXT_DECODE` (30_encoding.md R87). -/
theorem decodesUnder_of_base {i : Instr} (ext : Bool) (h : i.mnemonic ∈ baseMnemonics) : i.decodesUnder ext = true :=
  List.contains_iff_mem.2 (baseMnemonics_legal h)

/-- A running core at a CALL executes it, with the byte after the opcode as its operand. -/
theorem step_of_call {s : State} (hr : s.runstate = .running) (hpc : s.pc.toNat ≤ 254)
    (hop : s.mem.read s.pc = opcode .CALL) : step s = exec (.call (s.mem.read (u8 (s.pc.toNat + 1)))) s := by
  refine stepRunsInstructionInMemory s _ hr (decodesUnder_of_base _ (show Mnemonic.CALL ∈ _ by decide))
    (show s.pc.toNat + 2 ≤ 256 by omega) fun k hk => ?_
  match k, hk with
  | 0, _ => exact (congrArg s.mem.read (u8_toNat_self s.pc)).trans hop
  | 1, _ => rfl

/-- A running core at a RET executes it, wherever it stands. -/
theorem step_of_ret {s : State} (hr : s.runstate = .running) (hop : s.mem.read s.pc = opcode .RET) :
    step s = exec .ret s := by
  refine stepRunsInstructionInMemory s _ hr (decodesUnder_of_base _ (by decide)) s.pc.isLt fun k hk => ?_
  match k, hk with
  | 0, _ => exact (congrArg s.mem.read (u8_toNat_self s.pc)).trans hop

/-- Settles O50: the RET reads where the CALL stored, and its increment undoes the decrement, which under the check did
not wrap. -/
theorem callReturnRoundTrip : Obligations.CallReturnRoundTrip := by
  intro s ra hr hwf hpc hop ha hcheck
  obtain ⟨t, hcall, htsp, hat, htregs, hstored, -, ⟨-, hparams⟩, -, -, htrun, -⟩ :=
    callPushesReturnAddress _ ra s ha hpc hwf hcheck
  refine ⟨t, (step_of_call hr (by omega) hop).trans hcall, fun hret => ?_⟩
  have hretCheck : t.params.stackBoundCheck = true → t.reg SP ≠ 255 := fun hc =>
    hat ▸ storeAddress_ne_255 (hcheck (hparams ▸ hc))
  obtain ⟨u, hexec, husp, huregs, -, -, -, hupc, hurun, -⟩ := retPopsProgramCounter t hretCheck
  refine ⟨u, (step_of_ret (htrun.trans hr) hret).trans hexec, ?_, fun r => ?_, hurun.trans (htrun.trans hr)⟩
  · rw [hupc, hat, hstored]
  · by_cases hsp : r = SP
    · have hlt := (s.reg SP).isLt
      exact hsp ▸ BitVec.eq_of_toNat_eq (by omega)
    · have hother := mt List.mem_singleton.1 hsp
      exact (huregs r hother).trans (htregs r hother)

end Sys2Proof.Machine


namespace Sys2Proof.Machine

/-! ## The ALU port -/

/-- The tags the ALU supports (44_alu_compare.md R170). -/
def AluTag.supported : List AluTag := [.add, .sub, .mul, .and, .or, .xor]

/-- The supported tags by their numbers (92_eei_decisions.md D34). -/
theorem AluTag.mem_supported_iff {tag : AluTag} :
    tag ∈ AluTag.supported ↔ tag.toNat ∈ [0x0, 0x1, 0x2, 0x8, 0xA, 0xB] :=
  (List.mem_map_of_injective (l := AluTag.supported) BitVec.toNat_injective).symm

@[simp] theorem alu_add (va vb : Byte) : alu .add va vb = some (u8 (va.toNat + vb.toNat)) := rfl
@[simp] theorem alu_sub (va vb : Byte) : alu .sub va vb = some (u8 (va.toNat + 256 - vb.toNat)) := rfl
@[simp] theorem alu_mul (va vb : Byte) : alu .mul va vb = some (u8 (va.toNat * vb.toNat)) := rfl
@[simp] theorem alu_and (va vb : Byte) : alu .and va vb = some (va &&& vb) := rfl
@[simp] theorem alu_or (va vb : Byte) : alu .or va vb = some (va ||| vb) := rfl
@[simp] theorem alu_xor (va vb : Byte) : alu .xor va vb = some (va ^^^ vb) := rfl

/-- The output is `unsupported` exactly for the other tags, whatever the two bytes (44_alu_compare.md R179). -/
theorem alu_eq_none_iff {tag : AluTag} {va vb : Byte} : alu tag va vb = none ↔ tag ∉ AluTag.supported := by
  unfold alu AluTag.supported
  split_ifs <;> simp [*]

theorem alu_isSome_iff {tag : AluTag} {va vb : Byte} : (alu tag va vb).isSome = true ↔ tag ∈ AluTag.supported := by
  rw [Option.isSome_iff_ne_none, Ne, alu_eq_none_iff, not_not]

/-- The output for a tag given by its number is the output for the operation with that number. -/
theorem alu_result_of_toNat_eq {tag tag' : AluTag} {va vb v r : Byte} (hv : alu tag va vb = some v)
    (hr : alu tag' va vb = some r) (htag : tag.toNat = tag'.toNat) : v = r := by
  rw [BitVec.eq_of_toNat_eq htag, hr] at hv
  exact (Option.some.inj hv).symm

/-- Settles O36: by tag, the six equations of `alu`. -/
theorem aluPort : Obligations.AluPort := by
  intro tag va vb
  refine ⟨alu_isSome_iff.trans AluTag.mem_supported_iff, fun v hv => ⟨?add, ?sub, ?mul, ?and, ?or, ?xor⟩⟩
  case add => exact fun h => by rw [alu_result_of_toNat_eq hv (alu_add va vb) h, u8_toNat]
  case sub => exact fun h => by rw [alu_result_of_toNat_eq hv (alu_sub va vb) h, u8_toNat]
  case mul => exact fun h => by rw [alu_result_of_toNat_eq hv (alu_mul va vb) h, u8_toNat]
  case and => exact alu_result_of_toNat_eq hv (alu_and va vb)
  case or => exact alu_result_of_toNat_eq hv (alu_or va vb)
  case xor => exact alu_result_of_toNat_eq hv (alu_xor va vb)

/-- Without a result of the ALU, the execute phase is the fault alone (60_exceptions.md R215). -/
theorem aluExecute_of_none {op : Byte} {tag : AluTag} {ra rb : RegIdx} {s : State}
    (h : alu tag (s.reg ra) (s.reg rb) = none) :
    aluExecute op tag ra rb s = raise .unsupportedOperation op tag.toNat s := by
  rw [aluExecute, h]

/-- Settles O37: the operand check passes, and the ALU has no result. -/
theorem unsupportedTagFaults : Obligations.UnsupportedTagFaults := by
  intro op tag a b ra rb s ha hb htag
  have hnone : alu tag (s.reg ra) (s.reg rb) = none := alu_eq_none_iff.2 (mt AluTag.mem_supported_iff.1 htag)
  have hlt := tag.isLt
  refine ⟨_, withRegs_of_some (regIndex_of_eq ha) (regIndex_of_eq hb), ?_⟩
  rw [aluExecute_of_none hnone]
  exact raised_raise .unsupportedOperation op s (by omega)

/-! ## The ALU instructions -/

/-- An instruction whose execute phase writes the value `v` to one register completes with what holds of `v` holding of
that register, and no other effect (10_state.md R24, R29). -/
theorem completes_of_writeReg {i : Instr} {op : Byte} {ra : RegIdx} {v : Byte} {s : State} (P : Byte → Prop)
    (h : exec i s = .next (advance op (s.writeReg ra v))) (hv : P v) :
    ∃ t, exec i s = .next t ∧ P (t.reg ra) ∧ SameRegsBut [ra] s t ∧ SameMem s t ∧ SameFlags s t ∧ SameOut s t ∧
      EndsSequentially op (widthOf op) s t := by
  obtain ⟨hra, hframe⟩ := advance_writeReg_frame op ra v s
  exact ⟨_, h, hra.symm ▸ hv, hframe⟩

/-- Settles O31. -/
theorem addStoresSum : Obligations.AddStoresSum := fun _ _ ra rb s ha hb _ =>
  completes_of_writeReg (fun r => r.toNat = ((s.reg ra).toNat + (s.reg rb).toNat) % 256)
    (exec_of_outcome (.add ha hb)) (u8_toNat _)

/-- Settles O32. -/
theorem mulStoresLowByte : Obligations.MulStoresLowByte := fun _ _ ra rb s ha hb _ =>
  completes_of_writeReg (fun r => r.toNat = ((s.reg ra).toNat * (s.reg rb).toNat) % 256)
    (exec_of_outcome (.mul ha hb)) (u8_toNat _)

/-- The ALU's difference, formed without a negative number, is the integers' difference modulo 256
(44_alu_compare.md R175, R180). -/
theorem u8_sub_toNat (va vb : Byte) :
    ((u8 (va.toNat + 256 - vb.toNat)).toNat : Int) = ((va.toNat : Int) - (vb.toNat : Int)) % 256 := by
  have hvb := vb.isLt
  rw [u8_toNat]
  omega

/-- Settles O33. -/
theorem subStoresDifference : Obligations.SubStoresDifference := fun _ _ ra rb s ha hb _ =>
  completes_of_writeReg (fun r => (r.toNat : Int) = (((s.reg ra).toNat : Int) - ((s.reg rb).toNat : Int)) % 256)
    (exec_of_outcome (.sub ha hb)) (u8_sub_toNat (s.reg ra) (s.reg rb))

/-- Settles O34: each operation of the ALU acts on every bit alone. -/
theorem bitwiseStoresEachBit : Obligations.BitwiseStoresEachBit := fun _ _ ra rb s ha hb _ =>
  ⟨completes_of_writeReg (fun r => ∀ k < 8, r.getLsbD k = ((s.reg ra).getLsbD k && (s.reg rb).getLsbD k))
      (exec_of_outcome (.and ha hb)) fun _ _ => BitVec.getLsbD_and,
    completes_of_writeReg (fun r => ∀ k < 8, r.getLsbD k = ((s.reg ra).getLsbD k || (s.reg rb).getLsbD k))
      (exec_of_outcome (.or ha hb)) fun _ _ => BitVec.getLsbD_or,
    completes_of_writeReg (fun r => ∀ k < 8, r.getLsbD k = ((s.reg ra).getLsbD k != (s.reg rb).getLsbD k))
      (exec_of_outcome (.xor ha hb)) fun _ _ => BitVec.getLsbD_xor⟩

/-! ## The compare -/

@[simp] theorem compareFlags_e_iff {va vb : Byte} : (compareFlags va vb).e = true ↔ va.toNat = vb.toNat :=
  decide_eq_true_iff

@[simp] theorem compareFlags_g_iff {va vb : Byte} : (compareFlags va vb).g = true ↔ vb.toNat < va.toNat :=
  decide_eq_true_iff

@[simp] theorem compareFlags_l_iff {va vb : Byte} : (compareFlags va vb).l = true ↔ va.toNat < vb.toNat :=
  decide_eq_true_iff

/-- All that an instruction changes whose execute phase writes the flags: these, and what the sequential end changes
(10_state.md R29; 40_execution_cycle.md R110, R111). -/
theorem advance_writeFlags_frame (op : Byte) (f : Flags) (s : State) :
    let t := advance op (s.writeFlags f)
    t.flags = f ∧ SameRegs s t ∧ SameMem s t ∧ SameOut s t ∧ EndsSequentially op (widthOf op) s t :=
  ⟨advance_flags op _, advance_reg op _, sameMem_of_eq (advance_mem op _), ⟨advance_out op _, advance_params op _⟩,
    endsSequentially_advance op s _ rfl rfl rfl⟩

/-- Settles O35: the flags are those of the compare, read flag by flag. -/
theorem cmpSetsFlags : Obligations.CmpSetsFlags := by
  intro a b ra rb s ha hb _
  obtain ⟨hflags, hframe⟩ := advance_writeFlags_frame (opcode .CMP) (compareFlags (s.reg ra) (s.reg rb)) s
  refine ⟨_, exec_of_outcome (.cmp ha hb), ?_, ?_, ?_, hframe⟩ <;> rw [hflags]
  · exact compareFlags_e_iff
  · exact compareFlags_g_iff
  · exact compareFlags_l_iff

end Sys2Proof.Machine


namespace Sys2Proof.Machine

/-! ## Halt -/

/-- All that a halt changes is the run state (45_halt.md R200). -/
theorem halt_frame (s : State) :
    let t := halt s
    t.runstate = .halted ∧ t.pc = s.pc ∧ t.fault = s.fault ∧ SameRegs s t ∧ SameMem s t ∧ SameFlags s t ∧ SameOut s t :=
  ⟨halt_runstate s, halt_pc s, halt_fault s, halt_reg s, sameMem_of_eq (halt_mem s), ⟨halt_flags s, halt_params s⟩,
    ⟨halt_out s, halt_params s⟩⟩

/-- Settles O51. -/
theorem hltHalts : Obligations.HltHalts := fun s => ⟨_, exec_of_outcome .hlt, halt_frame s⟩

end Sys2Proof.Machine

namespace Sys2Proof.Machine

/-! ## The stack checks fail -/

theorem stackWouldOverflow_iff {s : State} :
    s.stackWouldOverflow = true ↔ s.params.stackBoundCheck = true ∧ s.reg SP = 0 := by
  simp [State.stackWouldOverflow]

theorem stackWouldUnderflow_iff {s : State} {sp : Byte} :
    s.stackWouldUnderflow sp = true ↔ s.params.stackBoundCheck = true ∧ sp = 255 := by
  simp [State.stackWouldUnderflow]

/-- Settles O41. -/
theorem stackOverflowFaults : Obligations.StackOverflowFaults := by
  intro a s ha hcheck hsp
  have hover := stackWouldOverflow_iff.2 ⟨hcheck, hsp⟩
  have hnext := nextSeq_call s
  exact ⟨⟨_, exec_of_outcome (.pushOverflow ha hover), raised_raise _ _ s (by decide)⟩,
    fun hpc => ⟨_, exec_of_outcome (.callOverflow ha (by omega) hover), raised_raise _ _ s (by decide)⟩⟩

/-- Settles O42: the value POP increments is the popped byte when it names the stack pointer. -/
theorem stackUnderflowFaults : Obligations.StackUnderflowFaults := by
  intro s hcheck
  have hunder {sp : Byte} (h : sp = 255) : s.stackWouldUnderflow sp = true := stackWouldUnderflow_iff.2 ⟨hcheck, h⟩
  have hpop {a : Byte} {ra : RegIdx} (ha : a.toNat = ra.val) (h : popIncrementBase ra s = 255) :
      ∃ t, exec (.pop a) s = .next t ∧ Raised .stackUnderflow (opcode .POP) 255 s t :=
    ⟨_, exec_of_outcome (.popUnderflow ha (hunder h)), raised_raise _ _ s (by decide)⟩
  refine ⟨fun hsp => ⟨_, exec_of_outcome (.retUnderflow (hunder hsp)), raised_raise _ _ s (by decide)⟩,
    fun a ha hsp => ?_, fun a ha hread => ?_⟩
  · have hne : (⟨a.toNat, by omega⟩ : RegIdx) ≠ SP := ne_SP_of_val_ne ha.ne
    exact hpop rfl ((popIncrementBase_of_ne s hne).trans hsp)
  · exact hpop (ra := SP) ha ((popIncrementBase_SP s).trans hread)

/-! ## The faults of an instruction -/

/-- The faults an instruction raises before any effect, each with its cause, its code and its information
(60_exceptions.md R213, R214, R216, R217, R221). -/
inductive PreciseFault : Instr → State → FaultCode → Nat → Prop where
  | invalidRegister {i s b} : i.firstBadOperand = some b → PreciseFault i s .invalidRegister b.toNat
  | returnAddress {a s} : (Instr.call a).wellFormed = true → s.pc.toNat = 254 →
      PreciseFault (.call a) s .invalidAddress 256
  | overflow {i s} : i.wellFormed = true → i.mnemonic = .PUSH ∨ i.mnemonic = .CALL ∧ s.pc.toNat ≤ 253 →
      s.stackWouldOverflow = true → PreciseFault i s .stackOverflow 0
  | retUnderflow {s} : s.stackWouldUnderflow (s.reg SP) = true → PreciseFault .ret s .stackUnderflow 255
  | popUnderflow {a s} {ra : RegIdx} : (Instr.pop a).wellFormed = true → a.toNat = ra.val →
      s.stackWouldUnderflow (popIncrementBase ra s) = true → PreciseFault (.pop a) s .stackUnderflow 255

/-- An instruction that faults either ends with the sequential advance or raised a precise fault. -/
theorem exec_faulted_cases {i : Instr} {s t : State} (h : exec i s = .next t) (hfit : Fits i s)
    (hr : s.runstate = .running) (ht : t.runstate = .faulted) :
    EndsInAdvance i s ∨ ∃ c n, PreciseFault i s c n ∧ t = raise c i.opcodeByte n s := by
  cases hb : i.firstBadOperand with
  | some b => exact .inr ⟨_, _, .invalidRegister hb, Host.Outcome.next.inj (h.symm.trans (exec_of_bad hb))⟩
  | none =>
    have hwf := wellFormed_iff_no_bad.2 hb
    have hnext := nextSeq_call s
    cases exec_cases h
    case invalidRegister hbad => cases hb.symm.trans hbad
    case callReturnAddress hn =>
      rw [show nextSeq (opcode .CALL) s = 256 from Nat.le_antisymm hfit hn] at hnext ⊢
      exact .inr ⟨_, _, .returnAddress hwf (by omega), rfl⟩
    case pushOverflow ho => exact .inr ⟨_, _, .overflow hwf (.inl rfl) ho, rfl⟩
    case callOverflow hn ho => exact .inr ⟨_, _, .overflow hwf (.inr ⟨rfl, by omega⟩) ho, rfl⟩
    case retUnderflow hu => exact .inr ⟨_, _, .retUnderflow hu, rfl⟩
    case popUnderflow ha hu => exact .inr ⟨_, _, .popUnderflow hwf ha hu, rfl⟩
    case hlt => cases ht
    case ret | call | jmp | jeqTaken | jneTaken => cases hr.symm.trans ht
    all_goals refine .inl ⟨hwf, ?_, ?_, nofun⟩
    case push.refine_1 ho => exact ho
    case pop.refine_1 ha hu => exact (instrStackFaults_pop s ha).trans hu
    case jeqNotTaken.refine_2 he => exact he
    case jneNotTaken.refine_2 he => exact congrArg not he
    all_goals rfl

/-- An instruction that faults though it ends with the sequential advance stands at the end of memory: its successor is
256, and that is its fault (40_execution_cycle.md R110, R111). -/
theorem exec_faulted_off_end {i : Instr} {s t : State} (hend : EndsInAdvance i s) (h : exec i s = .next t)
    (hfit : Fits i s) (hr : s.runstate = .running) (ht : t.runstate = .faulted) :
    s.pc.toNat + i.width = 256 ∧ t.pc = s.pc ∧ t.fault.code = .invalidAddress ∧ t.fault.pc = s.pc ∧
      t.fault.opcode = i.opcodeByte ∧ t.fault.info.toNat = 256 := by
  have hpast : ¬ s.pc.toNat + i.width ≤ 255 := by
    intro hle
    obtain ⟨t', h', -, hrun⟩ := sequentialAdvance i s hr hend hle
    cases h.symm.trans h'
    cases hrun.symm.trans ht
  have h256 : s.pc.toNat + i.width = 256 := by
    rw [Fits] at hfit
    omega
  obtain ⟨_, _, h', -, -, hcode, hfaultPc, hop, hinfo, hframe⟩ := offTheEndKeepsEffects i s hend h256
  cases h.symm.trans h'
  exact ⟨h256, by rw [hframe], hcode, hfaultPc, hop, hinfo⟩

/-- The opcode of a decoded instruction is the byte at `pc` (40_execution_cycle.md R101). -/
theorem opcodeByte_of_decode {s : State} {i : Instr} {rest : List Byte}
    (h : decode s.params.aluExtDecode s.fetchBytes = .ok (i, rest)) : i.opcodeByte = s.mem.read s.pc := by
  obtain ⟨hbytes, -⟩ := decodeReadsOnlyEncodings _ _ _ _ h
  rw [fetchBytes_eq] at hbytes
  exact (List.cons.inj hbytes).1.symm

/-- Settles O23: a step that faults raised a precise fault, or its instruction ran off the end of memory, which CALL as
a control transfer never does. -/
theorem faultsArePrecise : Obligations.FaultsArePrecise := by
  intro s t hr h ht
  cases step_cases h with
  | stopped hs => exact absurd hr hs
  | illegalOpcode | operandPastEnd => exact ⟨rfl, rfl, rfl, .inl rfl⟩
  | @instruction _ i rest _ hd hexec =>
    have hfit := fits_of_decode hd
    have hop := opcodeByte_of_decode hd
    obtain hend | ⟨c, n, -, rfl⟩ := exec_faulted_cases hexec hfit hr ht
    · obtain ⟨h256, hpc, hcode, hfaultPc, hopcode, -⟩ := exec_faulted_off_end hend hexec hfit hr ht
      have hcall : i.mnemonic ≠ .CALL := by
        obtain ⟨-, -, htransfer, -⟩ := hend
        rintro hi
        cases i <;> cases hi
        cases htransfer
      exact ⟨hpc, hfaultPc, hopcode.trans hop, .inr ⟨hcode, i, rest, hd, hcall, hend, h256⟩⟩
    · exact ⟨rfl, rfl, hop, .inl rfl⟩

/-- Settles O24: the causes are those of the fetch and decode, of a precise fault, and of the sequential advance. -/
theorem faultsHaveTheirCause : Obligations.FaultsHaveTheirCause := by
  intro s t hr h ht
  cases step_cases h with
  | stopped hs => exact absurd hr hs
  | illegalOpcode _ hop => exact ⟨hop, toInfo_byte s.fetchOpcode⟩
  | operandPastEnd _ hop hw => exact ⟨rfl, .inl ⟨_, hop, hw⟩⟩
  | @instruction _ i rest _ hd hexec =>
    have hfit := fits_of_decode hd
    obtain hend | ⟨c, n, hcause, rfl⟩ := exec_faulted_cases hexec hfit hr ht
    · obtain ⟨h256, -, hcode, -, -, hinfo⟩ := exec_faulted_off_end hend hexec hfit hr ht
      simp only [hcode]
      exact ⟨hinfo, .inr (.inr ⟨i, rest, hd, hend, h256⟩)⟩
    · cases hcause with
      | @invalidRegister _ _ b hb => exact ⟨i, rest, b, hd, hb, toInfo_byte b⟩
      | returnAddress hwf hpc => exact ⟨rfl, .inr (.inl ⟨_, rest, hd, hwf, hpc⟩)⟩
      | overflow hwf hi ho =>
        obtain ⟨hcheck, hsp⟩ := stackWouldOverflow_iff.1 ho
        exact ⟨hcheck, rfl, hsp, i, rest, hd, hwf, hi⟩
      | retUnderflow hu =>
        obtain ⟨hcheck, hsp⟩ := stackWouldUnderflow_iff.1 hu
        exact ⟨hcheck, rfl, _, rest, hd, rfl, .inl ⟨rfl, hsp⟩⟩
      | @popUnderflow a _ ra hwf ha hu =>
        obtain ⟨hcheck, hbase⟩ := stackWouldUnderflow_iff.1 hu
        refine ⟨hcheck, rfl, _, rest, hd, hwf, .inr ⟨a, rfl, fun hne => ?_, fun heq => ?_⟩⟩
        · exact (popIncrementBase_of_ne s (ne_SP_of_val_ne (ha ▸ hne))).symm.trans hbase
        · obtain rfl : ra = SP := Fin.ext (ha.symm.trans heq)
          exact (popIncrementBase_SP s).symm.trans hbase

end Sys2Proof.Machine

namespace Sys2Proof.Machine

/-! ## The host's actions -/

/-- A load is accepted exactly in Ready with at most 256 bytes (60_exceptions.md R232). -/
theorem loadAccepted_iff {p : List Byte} {s : State} :
    loadAccepted p s = true ↔ s.runstate = .ready ∧ p.length ≤ 256 := by
  simp [loadAccepted]

/-- What memory reads after a write of several bytes from address 0: the byte at that place, or what stood there. -/
theorem Memory.read_writeBytes_zero {m : Memory} (hm : m.wf = true) (vs : List Byte) (a : Byte) :
    (m.writeBytes 0 vs).read a = (vs[a.toNat]?).getD (m.read a) := by
  rw [Memory.read_writeBytes hm]
  by_cases ha : a.toNat < vs.length <;> simp [ha]

/-- Settles O56. -/
theorem loadPlacesProgram : Obligations.LoadPlacesProgram := by
  intro p s hwf
  refine ⟨fun hok => ?_, fun hbad => ?_⟩
  · rw [hostLoad_of_accepted (loadAccepted_iff.2 hok)]
    exact ⟨Memory.read_writeBytes_zero hwf p, rfl⟩
  · refine hostLoad_of_refused (Bool.eq_false_iff.2 fun hacc => ?_)
    obtain ⟨hready, hlen⟩ := loadAccepted_iff.1 hacc
    exact hbad.elim (absurd hready) (Nat.not_lt.2 hlen)

/-- Settles O57. -/
theorem startRunsReadyCore : Obligations.StartRunsReadyCore := fun _ =>
  ⟨fun hready => if_pos hready, fun hother => if_neg hother⟩

/-- A load keeps the invariant: it writes memory alone, byte by byte, or nothing. -/
theorem hostLoad_inv {s : State} (hs : s.Inv) (p : List Byte) : (hostLoad p s).Inv := by
  cases hacc : loadAccepted p s with
  | false => rwa [hostLoad_of_refused hacc]
  | true =>
    obtain ⟨hmem, hflags, hfault⟩ := hs
    rw [hostLoad_of_accepted hacc]
    exact ⟨Memory.wf_writeBytes hmem 0 p, hflags, hfault⟩

/-- A start keeps the invariant: the record of a Ready core is cleared, as that of a Running one must be. -/
theorem hostStart_inv {s : State} (hs : s.Inv) : (hostStart s).Inv := by
  obtain ⟨hstart, hstay⟩ := startRunsReadyCore s
  by_cases hready : s.runstate = .ready
  · obtain ⟨hmem, hflags, hcleared, -⟩ := hs
    rw [hstart hready]
    exact ⟨hmem, hflags, faultConsistent_of_cleared nofun (hcleared (by simp [hready]))⟩
  · rwa [hstay hready]

/-- Settles O28. -/
theorem hostActionsKeepInvariant : Obligations.HostActionsKeepInvariant := fun act s hs =>
  match act with
  | .reset => resetHasInvariant s.params
  | .load p => hostLoad_inv hs p
  | .start => hostStart_inv hs

end Sys2Proof.Machine

namespace Sys2Proof.Machine

/-! ## Reset, and the first fetch after it -/

/-- The registers after reset: the stack pointer is 0xF4, every other register 0 (10_state.md R37). -/
theorem resetWith_reg (p : Params) (r : RegIdx) :
    (State.resetWith p).reg r = if r.val = 7 then 0xF4 else 0x00 := by
  fin_cases r <;> rfl

/-- Settles O55. -/
theorem resetValues : Obligations.ResetValues := fun s =>
  ⟨resetWith_reg s.params, rfl, rfl, fun _ => rfl, rfl, rfl, rfl, rfl⟩

/-- A start after reset leaves the reset state, Running. -/
theorem hostStart_hostReset (s : State) :
    hostStart (hostReset s) = { State.resetWith s.params with runstate := .running } :=
  (startRunsReadyCore (hostReset s)).1 rfl

/-- 0x00 is no opcode under either value of `ALU_EXT_DECODE` (30_encoding.md R89). -/
theorem decodeOpcode_zero (ext : Bool) : decodeOpcode ext 0x00 = none := by
  revert ext
  decide

/-- Settles O59: reset memory holds 0x00 at address 0, so the step's outcome is the fault of an illegal opcode. -/
theorem startWithoutProgramFaults : Obligations.StartWithoutProgramFaults := by
  intro s
  rw [hostStart_hostReset]
  exact ⟨_, step_of_outcome (.illegalOpcode rfl (decodeOpcode_zero s.params.aluExtDecode)),
    raised_raise _ _ _ (by decide), rfl⟩

/-- A load and a start after reset leave the reset state, Running, with the program written from address 0
(60_exceptions.md R232, R233). -/
theorem hostStart_hostLoad_hostReset (s : State) {p : List Byte} (hp : p.length ≤ 256) :
    hostStart (hostLoad p (hostReset s)) =
      { State.resetWith s.params with mem := Memory.writeBytes [] 0 p, runstate := .running } := by
  rw [hostLoad_of_accepted (loadAccepted_iff.2 ⟨rfl, hp⟩)]
  exact (startRunsReadyCore _).1 rfl

/-- A fetch of `n` bytes from address 0 of memory that holds a program and 0x00 above it. -/
theorem bytesFrom_writeBytes_zero (p : List Byte) {n : Nat} (hn : n ≤ 256) :
    bytesFrom (Memory.writeBytes [] 0 p) 0 n = (p ++ List.replicate n 0).take n := by
  refine List.ext_getElem (by simp [bytesFrom_length, hn]) fun k hk _ => ?_
  have hkn : k < 256 := by
    rw [bytesFrom_length _ _ _ (Nat.zero_le _)] at hk
    omega
  have hread : (Memory.writeBytes [] 0 p).read (u8 (0 + k)) = (p[k]?).getD 0x00 := by
    rw [Memory.read_writeBytes_zero rfl, u8_toNat, Nat.zero_add, Nat.mod_eq_of_lt hkn]
    rfl
  rw [bytesFrom_getElem, hread, List.getElem_take, List.getElem_append]
  by_cases hkp : k < p.length <;> simp [hkp]

/-- Settles O58: the first fetch is of three bytes from address 0 of reset memory with the program written over it. -/
theorem firstInstructionIsAtZero : Obligations.FirstInstructionIsAtZero := by
  intro s p hp
  rw [hostStart_hostLoad_hostReset s hp]
  exact ⟨rfl, rfl, bytesFrom_writeBytes_zero p (by decide)⟩

end Sys2Proof.Machine
